-- ==== Sys2Proof/Word.lean ====
section
/-! DEFINITION. The word types of the ph5500 byte-code core (00_scope.md rules R5, R8, R9). -/

namespace Sys2Proof

/-- A register, memory cell, operand byte or flag value: 8 bits, unsigned (R5 `XLEN`, `CELL_WIDTH`, R9). -/
abbrev Byte := BitVec 8

/-- The program counter, STOP_PC and STOP_INFO: 9 bits (R5 `PC_WIDTH`, R20, R29). -/
abbrev Word9 := BitVec 9

/-- An index of a general register: 0 to 7 (R5 `NREGS`, R15). -/
abbrev RegIndex := Fin 8

end Sys2Proof
end

