-- ==== Sys2Proof/Syntax.lean ====
section
/-! DEFINITION. The instructions: one constructor per row of opcode_table.json (30_encoding.md rules R69, R70).
An operand is the whole byte as it stands in the instruction stream (R64), since no operand byte takes part in choosing
the instruction (R72): a register field of 8 or more is an instruction, which takes REGISTER_INDEX_FAULT (R66, R90). -/

namespace Sys2Proof

/-- The 13 instructions. `a` is operand_a, `b` is operand_b (R12). -/
inductive Instr where
  /-- HLT: halt execution (R94). -/
  | hlt
  /-- LDI a, b: load the immediate b into register a (R106). -/
  | ldi (a b : Byte)
  /-- PRN a: emit register a (R108). -/
  | prn (a : Byte)
  /-- MUL a, b: multiply registers (R113). -/
  | mul (a b : Byte)
  /-- ADD a, b: add registers (R112). -/
  | add (a b : Byte)
  /-- PUSH a: push register a (R124). -/
  | push (a : Byte)
  /-- POP a: pop into register a (R125). -/
  | pop (a : Byte)
  /-- RET: return from subroutine (R131). -/
  | ret
  /-- CALL a: call the address held by register a (R130). -/
  | call (a : Byte)
  /-- CMP a, b: compare registers (R114). -/
  | cmp (a b : Byte)
  /-- JNE a: jump if the Equal flag is clear (R136). -/
  | jne (a : Byte)
  /-- JEQ a: jump if the Equal flag is set (R135). -/
  | jeq (a : Byte)
  /-- JMP a: jump (R134). -/
  | jmp (a : Byte)
deriving DecidableEq, Repr

end Sys2Proof
end

