-- ==== Sys2Proof/WellFormed.lean ====
section
/-! DEFINITION. Which instructions are well formed: those whose register fields are legal (30_encoding.md rules R66,
R67, R69). An instruction that is not is still fetched and decoded; it takes REGISTER_INDEX_FAULT (R90). -/

namespace Sys2Proof

/-- A legal register field: 0 to 7 (R66). -/
def legalReg (byte : Byte) : Bool := byte.toNat < 8

/-- Every register field of the instruction is legal; LDI's immediate may be any byte (R67, R69). -/
def Instr.wf : Instr → Bool
  | .hlt => true
  | .ldi a _ => legalReg a
  | .prn a => legalReg a
  | .mul a b => legalReg a && legalReg b
  | .add a b => legalReg a && legalReg b
  | .push a => legalReg a
  | .pop a => legalReg a
  | .ret => true
  | .call a => legalReg a
  | .cmp a b => legalReg a && legalReg b
  | .jne a => legalReg a
  | .jeq a => legalReg a
  | .jmp a => legalReg a

end Sys2Proof
end

