-- ==== Sys2Proof/Decode.lean ====
section
/-! DEFINITION. The opcode decoder, the encoder and the control words (30_encoding.md, and rule R88 of 40_control_unit.md). -/

namespace Sys2Proof

/-! ### The opcode map (R70) -/

/-- The 13 opcodes: an instruction without its operand bytes. -/
inductive Op where
  | hlt | ldi | prn | mul | add | push | pop | ret | call | cmp | jne | jeq | jmp
deriving DecidableEq, Repr

/-- The opcode map, the rows of R70 in their order: the opcode byte as the source's table writes it, and its instruction. -/
def opcodeMap : List (Byte × Op) :=
  [(0b00000001#8, .hlt), (0b10000010#8, .ldi), (0b01000111#8, .prn), (0b10100010#8, .mul), (0b10100000#8, .add),
    (0b01000101#8, .push), (0b01000110#8, .pop), (0b00010001#8, .ret), (0b01010000#8, .call), (0b10100111#8, .cmp),
    (0b01010110#8, .jne), (0b01010101#8, .jeq), (0b01010100#8, .jmp)]

/-! ### Decoder -/

/-- Why bytes are no instruction. -/
inductive Rejection where
  /-- The opcode byte is none of the 13 of R70 (R73). -/
  | unrecognisedOpcode (opcode : Byte)
  /-- A byte list ends before the operand bytes of its opcode (only `decodeBytes`: the core always fetches three bytes,
  R86). -/
  | truncated (opcode : Byte)
  /-- An empty byte list (only `decodeBytes`). -/
  | noBytes
deriving DecidableEq, Repr

/-- The lookup of an opcode byte: an exact match of all 8 bits against the map (R72), none for the other 243 (R73). -/
def lookupOp (ir : Byte) : Option Op := (opcodeMap.find? (fun row => row.1 == ir)).map Prod.snd

/-- The instruction of an opcode with the latched operand bytes. Bytes it does not use are dropped (R68, R69). -/
def Op.build (op : Op) (opa opb : Byte) : Instr :=
  match op with
  | .hlt => .hlt
  | .ldi => .ldi opa opb
  | .prn => .prn opa
  | .mul => .mul opa opb
  | .add => .add opa opb
  | .push => .push opa
  | .pop => .pop opa
  | .ret => .ret
  | .call => .call opa
  | .cmp => .cmp opa opb
  | .jne => .jne opa
  | .jeq => .jeq opa
  | .jmp => .jmp opa

/-- `decode(IR)` with the latched operand bytes (R72, R88). It is total, and no operand byte takes part in the choice. -/
def decode (ir opa opb : Byte) : Except Rejection Instr :=
  match lookupOp ir with
  | some op => .ok (op.build opa opb)
  | none => .error (.unrecognisedOpcode ir)

/-! ### Encoder -/

/-- The opcode of an instruction. -/
def Instr.op : Instr → Op
  | .hlt => .hlt
  | .ldi _ _ => .ldi
  | .prn _ => .prn
  | .mul _ _ => .mul
  | .add _ _ => .add
  | .push _ => .push
  | .pop _ => .pop
  | .ret => .ret
  | .call _ => .call
  | .cmp _ _ => .cmp
  | .jne _ => .jne
  | .jeq _ => .jeq
  | .jmp _ => .jmp

/-- The opcode byte (R70, the hexadecimal column). -/
def Op.code : Op → Byte
  | .hlt => 0x01#8
  | .ldi => 0x82#8
  | .prn => 0x47#8
  | .mul => 0xA2#8
  | .add => 0xA0#8
  | .push => 0x45#8
  | .pop => 0x46#8
  | .ret => 0x11#8
  | .call => 0x50#8
  | .cmp => 0xA7#8
  | .jne => 0x56#8
  | .jeq => 0x55#8
  | .jmp => 0x54#8

/-- The operand bytes of an instruction, operand_a first (R64, R65, R69). -/
def Instr.operands : Instr → List Byte
  | .hlt => []
  | .ldi a b => [a, b]
  | .prn a => [a]
  | .mul a b => [a, b]
  | .add a b => [a, b]
  | .push a => [a]
  | .pop a => [a]
  | .ret => []
  | .call a => [a]
  | .cmp a b => [a, b]
  | .jne a => [a]
  | .jeq a => [a]
  | .jmp a => [a]

/-- The bytes of an instruction at increasing addresses (R64). -/
def encode (i : Instr) : List Byte := i.op.code :: i.operands

/-! ### Control words (R88) -/

/-- What a field of an instruction holds (R69, R88). -/
inductive OperandKind where
  | none | register | immediate
deriving DecidableEq, Repr

/-- The next-pc selections of R91. -/
inductive PcSel where
  | hold | seq | reg | regIfESet | regIfEClear | regAfterPush | popped
deriving DecidableEq, Repr

/-- The stack operation an instruction makes (R88). -/
inductive StackOp where
  | none | push | pop
deriving DecidableEq, Repr

/-- The control word of R88. -/
structure Control where
  length : Nat
  aKind : OperandKind
  bKind : OperandKind
  /-- The ALU select the decoder drives, if the instruction uses the ALU (R110). -/
  aluOp : Option (BitVec 2)
  pcSel : PcSel
  stackOp : StackOp
  writesReg : Bool
  writesFl : Bool
  emits : Bool
deriving DecidableEq, Repr

/-- The table of R88, row by row. -/
def Op.control : Op → Control
  | .hlt => ⟨1, .none, .none, none, .hold, .none, false, false, false⟩
  | .ldi => ⟨3, .register, .immediate, none, .seq, .none, true, false, false⟩
  | .prn => ⟨2, .register, .none, none, .seq, .none, false, false, true⟩
  | .mul => ⟨3, .register, .register, some 1#2, .seq, .none, true, false, false⟩
  | .add => ⟨3, .register, .register, some 0#2, .seq, .none, true, false, false⟩
  | .push => ⟨2, .register, .none, none, .seq, .push, false, false, false⟩
  | .pop => ⟨2, .register, .none, none, .seq, .pop, true, false, false⟩
  | .ret => ⟨1, .none, .none, none, .popped, .pop, false, false, false⟩
  | .call => ⟨2, .register, .none, none, .regAfterPush, .push, false, false, false⟩
  | .cmp => ⟨3, .register, .register, some 2#2, .seq, .none, false, true, false⟩
  | .jne => ⟨2, .register, .none, none, .regIfEClear, .none, false, false, false⟩
  | .jeq => ⟨2, .register, .none, none, .regIfESet, .none, false, false, false⟩
  | .jmp => ⟨2, .register, .none, none, .reg, .none, false, false, false⟩

/-! ### Byte lists -/

/-- Decode the instruction at the head of a byte list and give the bytes after it (R63, R64, R75). -/
def decodeBytes : List Byte → Except Rejection (Instr × List Byte)
  | [] => .error .noBytes
  | ir :: rest =>
    match lookupOp ir with
    | none => .error (.unrecognisedOpcode ir)
    | some op =>
      if op.control.length ≤ rest.length + 1 then
        .ok (op.build (rest.getD 0 0#8) (rest.getD 1 0#8), rest.drop (op.control.length - 1))
      else .error (.truncated ir)

/-! ### The opcode table's words -/

/-- Byte `k` of a word numbered as opcode_table.json numbers it: the first byte is bits 7..0 (R64). Bits at `nbits` and
above are zero. -/
def tableByte (nbits w k : Nat) : Byte := BitVec.ofNat 8 (w % 2 ^ nbits / 256 ^ k)

/-- The instruction the decoder reads from a word of the opcode table. -/
def decodeTableWord (nbits w : Nat) : Option Instr :=
  match decode (tableByte nbits w 0) (tableByte nbits w 1) (tableByte nbits w 2) with
  | .ok i => some i
  | .error _ => none

end Sys2Proof
end

