-- ==== Sys2Proof/Machine/Flags.lean ====
section
/-! DEFINITION. The flag register's layout and the flag value CMP writes (rules R23 and R115). -/

namespace Sys2Proof.Machine

/-- FL with only E, bit 2, set (R23). -/
def flEqual : Byte := 0b00000100#8

/-- FL with only G, bit 1, set (R23). -/
def flGreater : Byte := 0b00000010#8

/-- FL with only L, bit 0, set (R23). -/
def flLess : Byte := 0b00000001#8

/-- The condition of JEQ and JNE: bit 2 of FL, and no other bit (R24, R133). -/
def equalSet (fl : Byte) : Bool := fl.getLsbD 2

/-- `cmp_flags(u, v)` (R115). `lessSharesEqual` is the model argument `FL_LESS_SHARES_EQUAL`. -/
def cmpFlags (lessSharesEqual : Bool) (u v : Byte) : Byte :=
  if u.toNat = v.toNat then flEqual
  else if u.toNat > v.toNat then flGreater
  else if lessSharesEqual then flEqual else flLess

end Sys2Proof.Machine
end

