-- ==== Sys2Proof/Config.lean ====
section
/-! DEFINITION. The implementation parameters of 00_scope.md rule R5: the constants this hardware fixes, and the
model arguments it leaves open. -/

namespace Sys2Proof

/-- `MEM_SIZE`: 256 cells, addresses 0 to 255 (R5, R6; decision D1). -/
abbrev Config.memSize : Nat := 256

/-- `SP_INDEX`: the register used as stack pointer (R5, R18). -/
abbrev Config.spIndex : RegIndex := 7

/-- `SP_RESET` (R5, R19; conflict C3). -/
abbrev Config.spReset : Byte := 244#8

/-- `PC_RESET` (R5, R22). -/
abbrev Config.pcReset : Word9 := 0#9

/-- `FL_RESET` (R5, R25; decision D9). -/
abbrev Config.flReset : Byte := 0#8

/-- The model arguments of R5 that are no part of memory, and the reset values the spec leaves unspecified.
`State.params` carries them, so that a statement about every state holds for every value of them
(DESIGN CHOICE, notes/assumptions/1.md). The third model argument, `MEM_IMAGE`, is the memory the run starts with. -/
structure Params where
  /-- `GPR_RESET`: what reset writes into R0 to R6, unconstrained (R19; decision D8). -/
  gprReset : Vector Byte 7
  /-- What reset leaves in IR: unspecified and unobservable (R27; decision D30). -/
  irReset : Byte
  /-- What reset leaves in OPA: unspecified and unobservable (R27; decision D30). -/
  opaReset : Byte
  /-- What reset leaves in OPB: unspecified and unobservable (R27; decision D30). -/
  opbReset : Byte
  /-- `FL_LESS_SHARES_EQUAL`: whether CMP reports Less in the Equal bit (R115; decision D10). -/
  lessSharesEqual : Bool
deriving DecidableEq, Repr

/-- The arguments `State.reset` takes: `FL_LESS_SHARES_EQUAL` is false, the spec's default (R5). The spec gives no
value of `GPR_RESET` and of the latches: zero is the model's (DESIGN CHOICE, notes/assumptions/2.md and 3.md; unsafe). -/
def Params.default : Params :=
  { gprReset := #v[0#8, 0#8, 0#8, 0#8, 0#8, 0#8, 0#8]
    irReset := 0#8
    opaReset := 0#8
    opbReset := 0#8
    lessSharesEqual := false }

end Sys2Proof
end

