-- ==== Sys2Proof/Machine/State.lean ====
section
/-! DEFINITION. The state of the core (10_state.md), why it stops, and the machine right after reset. -/

namespace Sys2Proof.Machine

/-- RUN_STATUS (R28). Codes 2 to 7 are the stopped states. -/
inductive RunStatus where
  /-- 0: reset done, not started. -/
  | ready
  /-- 1: the core steps. -/
  | running
  /-- 2: HLT executed. -/
  | halted
  /-- 3: the opcode byte matched no instruction. -/
  | badOpcode
  /-- 4: a memory address was 256 or more. -/
  | addressFault
  /-- 5: a register operand was 8 or more. -/
  | registerIndexFault
  /-- 6: SP would leave 0..255. -/
  | stackFault
  /-- 7: the ALU was given an unsupported operation. -/
  | aluFault
deriving DecidableEq, Repr

/-- The stop causes of R141 with what each reports. A stop is a change of state the spec describes (R93, R148), not a
`Fault` of the model. -/
inductive StopCause where
  /-- HLT executed (R94). -/
  | halted
  /-- The opcode byte is not in the table (R142). -/
  | badOpcode
  /-- A memory access at `addr`, 256 or more (R144). -/
  | addressFault (addr : Nat)
  /-- A register field holds `byte`, 8 or more (R145). -/
  | registerIndexFault (byte : Byte)
  /-- A stack operation began with SP = `sp` and would take SP out of 0..255 (R146). -/
  | stackFault (sp : Byte)
  /-- The ALU select `sel` names no operation (R143). -/
  | aluFault (sel : BitVec 2)
deriving DecidableEq, Repr

/-- Memory: the cells that do not read as `Memory.unlisted`, as (address, byte) pairs (R31). Canonical form:
`Memory.wf`. -/
abbrev Memory := List Host.Cell

/-- What a cell that memory does not list reads as. A representation for an image in general; for `State.reset`'s empty
memory it says that every cell is zero, which the spec does not (R32): DESIGN CHOICE, notes/assumptions/4.md, unsafe. -/
def Memory.unlisted : Byte := 0#8

/-- Every address in the list is at least `low` and they rise strictly; every address exists (R31); no entry is equal to
what an unlisted address reads as. -/
def Memory.wfFrom : Nat → Memory → Bool
  | _, [] => true
  | low, (a, v) :: rest =>
    decide (low ≤ a) && decide (a < Config.memSize) && decide (v ≠ Memory.unlisted) && Memory.wfFrom (a + 1) rest

/-- The canonical form of memory: equal memories are equal lists. -/
def Memory.wf (m : Memory) : Bool := Memory.wfFrom 0 m

/-- The complete state of the core (R42), and the model arguments (`params`, the model's own field: notes/assumptions/1.md). -/
structure State where
  /-- R0 to R7; R7 is SP (R15, R18). -/
  regs : Vector Byte 8
  /-- The program counter (R20). -/
  pc : Word9
  /-- The flag register FL (R23). -/
  fl : Byte
  /-- Fetch latch IR, the opcode byte (R27). -/
  ir : Byte
  /-- Fetch latch OPA, operand_a (R27). -/
  opa : Byte
  /-- Fetch latch OPB, operand_b (R27). -/
  opb : Byte
  /-- The 256 memory cells (R31). -/
  mem : Memory
  /-- RUN_STATUS (R28). -/
  status : RunStatus
  /-- STOP_PC (R29). -/
  stopPc : Word9
  /-- STOP_OPCODE (R29). -/
  stopOpcode : Byte
  /-- STOP_INFO (R29). -/
  stopInfo : Word9
  /-- The output stream, oldest value first (R37). -/
  out : List Byte
  /-- The model arguments; no step and no port changes them. -/
  params : Params
deriving DecidableEq, Repr

/-- Why a step is stuck. The core has no other fault: the faults of 60_exceptions.md are stops, which are next states. -/
inductive Fault where
  /-- Raised by `step` alone, when RUN_STATUS is READY: no step is enabled before the host's `start` (R28, R39). Safe. -/
  | notStarted
  /-- Raised by `step` alone, when RUN_STATUS is a stopped state: no step is enabled until reset (R93, R152). Safe. -/
  | coreStopped
deriving DecidableEq, Repr

/-- Why an instruction has no meaning. -/
inductive Refusal where
  /-- Raised by an arm of `exec` whose instruction has no meaning yet; no arm does. Safe. -/
  | notModelled (mnemonic : String)
deriving DecidableEq, Repr

/-- The registers after reset: `GPR_RESET` in R0 to R6, 244 in R7 (R19). -/
def resetRegs (p : Params) : Vector Byte 8 := p.gprReset.push Config.spReset

/-- The machine right after reset (R161, R162), with nothing loaded. The values the spec does not give (R0 to R6, the
latches, memory) are the model's: notes/assumptions/2.md, 3.md, 4.md. -/
def State.reset : State :=
  { regs := resetRegs Params.default
    pc := Config.pcReset
    fl := Config.flReset
    ir := Params.default.irReset
    opa := Params.default.opaReset
    opb := Params.default.opbReset
    mem := []
    status := .ready
    stopPc := 0#9
    stopOpcode := 0#8
    stopInfo := 0#9
    out := []
    params := Params.default }

end Sys2Proof.Machine
end

