-- ==== Sys2Proof/Machine/Ops.lean ====
section
/-! DEFINITION. The named operations over registers, memory, stack and run status that every meaning is built from. -/

namespace Sys2Proof.Machine

/-! ### Registers, flags, pc, output -/

/-- `x[i]` (R10, R15, R16). -/
def State.reg (s : State) (i : RegIndex) : Byte := s.regs[i]

/-- `x[i] <- v` (R10, R16). -/
def State.setReg (s : State) (i : RegIndex) (v : Byte) : State := { s with regs := s.regs.set i v }

/-- `SP` is another name for `x[7]` (R18). -/
def State.sp (s : State) : Byte := s.reg Config.spIndex

/-- `FL <- v` (R10, R24). -/
def State.setFl (s : State) (v : Byte) : State := { s with fl := v }

/-- `pc <- target` (R10). -/
def State.setPc (s : State) (target : Word9) : State := { s with pc := target }

/-- A byte as a pc value: jump and return targets are 0 to 255 (R133). -/
def toPc (v : Byte) : Word9 := v.setWidth 9

/-- The SEQ selection of R91: `pc <- p + len`, where `p` is still in pc (R20). In 9 bits nothing wraps for the pc of any
step that gets past its fetch (R22; notes/assumptions/10.md). -/
def State.advance (s : State) (len : Nat) : State := s.setPc (s.pc + BitVec.ofNat 9 len)

/-- `emit(v)` (R10, R37; nothing is ever taken out again: notes/assumptions/11.md). -/
def State.emit (s : State) (v : Byte) : State := { s with out := s.out ++ [v] }

/-! ### Memory -/

/-- The byte at an address, listed or not. -/
def Memory.read : Memory → Nat → Byte
  | [], _ => Memory.unlisted
  | (k, v) :: rest, a => if k = a then v else Memory.read rest a

/-- Insert an entry for an address that the list does not hold, before the first higher address. -/
def Memory.insert : Memory → Nat → Byte → Memory
  | [], a, v => [(a, v)]
  | (k, w) :: rest, a, v => if a < k then (a, v) :: (k, w) :: rest else (k, w) :: Memory.insert rest a v

/-- Write a byte, keeping the canonical form: the old entry goes, and a new one comes unless it would say what an unlisted
address reads as. -/
def Memory.write (m : Memory) (a : Nat) (v : Byte) : Memory :=
  if v = Memory.unlisted then m.filter (fun c => c.1 ≠ a) else Memory.insert (m.filter (fun c => c.1 ≠ a)) a v

/-- `MemRead(addr, 1)` (R45). -/
def memRead (addr : Nat) (s : State) : Except StopCause Byte :=
  if addr < Config.memSize then .ok (s.mem.read addr) else .error (.addressFault addr)

/-- `MemWrite(addr, 1, v)` (R46). -/
def memWrite (addr : Nat) (v : Byte) (s : State) : Except StopCause State :=
  if addr < Config.memSize then .ok { s with mem := s.mem.write addr v } else .error (.addressFault addr)

/-! ### Stack -/

/-- The address a push writes: SP - 1 (R121). -/
def pushAddress (s : State) : Nat := s.sp.toNat - 1

/-- The address a pop reads: SP (R122). -/
def popAddress (s : State) : Nat := s.sp.toNat

/-- `push_byte(v)` (R121): the range check comes before any write. -/
def pushByte (v : Byte) (s : State) : Except StopCause State :=
  if s.sp = 0#8 then .error (.stackFault s.sp)
  else memWrite (pushAddress s) v (s.setReg Config.spIndex (s.sp - 1#8))

/-- `pop_byte()` (R122): the byte and the state with SP incremented. -/
def popByte (s : State) : Except StopCause (Byte × State) :=
  if s.sp = 255#8 then .error (.stackFault s.sp)
  else do
    let v ← memRead (popAddress s) s
    return (v, s.setReg Config.spIndex (s.sp + 1#8))

/-! ### Stopping: taking a fault or a halt, and leaving it -/

/-- The status a cause sets (R141). -/
def StopCause.status : StopCause → RunStatus
  | .halted => .halted
  | .badOpcode => .badOpcode
  | .addressFault _ => .addressFault
  | .registerIndexFault _ => .registerIndexFault
  | .stackFault _ => .stackFault
  | .aluFault _ => .aluFault

/-- The value a cause records in STOP_INFO (R29, R141). -/
def StopCause.info : StopCause → Word9
  | .halted => 0#9
  | .badOpcode => 0#9
  | .addressFault addr => BitVec.ofNat 9 addr
  | .registerIndexFault byte => byte.setWidth 9
  | .stackFault sp => sp.setWidth 9
  | .aluFault sel => sel.setWidth 9

/-- `halt(status, info)`, the one stop of HLT, of an unrecognised opcode and of every fault (R93, R148): only the status
and the stop registers change. `opcode` is IR, or 0 if this step did not fetch it. -/
def takeStop (c : StopCause) (opcode : Byte) (s : State) : State :=
  { s with status := c.status, stopPc := s.pc, stopOpcode := opcode, stopInfo := c.info }

/-- End an instruction that started in `s`: the state its effects built, or the stop it took in `s` (R148: no effect of a
faulting step stays). STOP_OPCODE is the latch IR, which the fetch of the step has loaded (notes/assumptions/5.md). -/
def complete (s : State) : Except StopCause State → Host.Outcome State Fault Refusal
  | .ok t => .next t
  | .error c => .next (takeStop c s.ir s)

/-- The reset action (R161), the only way out of a stopped state (R152). Memory stays (R32). -/
def resetAction (s : State) : State :=
  { s with
    regs := resetRegs s.params
    pc := Config.pcReset
    fl := Config.flReset
    ir := s.params.irReset
    opa := s.params.opaReset
    opb := s.params.opbReset
    status := .ready
    stopPc := 0#9
    stopOpcode := 0#8
    stopInfo := 0#9
    out := [] }

/-- RUN_STATUS as the 3-bit code of R28. -/
def RunStatus.code : RunStatus → BitVec 3
  | .ready => 0#3
  | .running => 1#3
  | .halted => 2#3
  | .badOpcode => 3#3
  | .addressFault => 4#3
  | .registerIndexFault => 5#3
  | .stackFault => 6#3
  | .aluFault => 7#3

/-- The stopped states are codes 2 to 7 (R28). -/
def RunStatus.stopped (r : RunStatus) : Bool := decide (2 ≤ r.code.toNat)

/-- Why a core that is not RUNNING takes no step (R28, R152). -/
def stuckReason (r : RunStatus) : Fault := if r.stopped then .coreStopped else .notStarted

end Sys2Proof.Machine
end

