-- ==== Sys2Proof/Machine/Operands.lean ====
section
/-! DEFINITION. The two operand forms: a register field and LDI's immediate (30_encoding.md rules R66, R67). -/

namespace Sys2Proof.Machine

/-- A register field: the register it names, or RegisterIndexFault when it holds 8 or more (R66, R90). -/
def regOperand (byte : Byte) : Except StopCause RegIndex :=
  if h : byte.toNat < 8 then .ok ⟨byte.toNat, h⟩ else .error (.registerIndexFault byte)

/-- An immediate field: the byte as it stands (R67). -/
def immOperand (byte : Byte) : Byte := byte

end Sys2Proof.Machine
end

