-- ==== Sys2Proof/Machine/Alu.lean ====
section
/-! DEFINITION. The ALU and its instructions ADD, MUL, CMP (42_alu.md). -/

namespace Sys2Proof.Machine

/-- What the ALU returns: an 8-bit result, or for CMP a flag value (R109). -/
inductive AluOut where
  | result (v : Byte)
  | flags (v : Byte)
deriving DecidableEq, Repr

/-- The select values of R110. -/
def aluAdd : BitVec 2 := 0#2
def aluMul : BitVec 2 := 1#2
def aluCmp : BitVec 2 := 2#2

/-- `alu(op, u, v)` (R110): exact on unbounded integers, then reduced modulo 256 (R116). Select 3 is unsupported (R111). -/
def alu (lessSharesEqual : Bool) (sel : BitVec 2) (u v : Byte) : Except StopCause AluOut :=
  if sel = aluAdd then .ok (.result (BitVec.ofNat 8 ((u.toNat + v.toNat) % 256)))
  else if sel = aluMul then .ok (.result (BitVec.ofNat 8 ((u.toNat * v.toNat) % 256)))
  else if sel = aluCmp then .ok (.flags (cmpFlags lessSharesEqual u v))
  else .error (.aluFault sel)

/-- Where an ALU output goes: a result into register a, a flag value into FL (R109). -/
def aluWriteBack (d : RegIndex) : AluOut → State → State
  | .result v, s => s.setReg d v
  | .flags v, s => s.setFl v

/-- An instruction of format F2R: both registers are checked, a first (R90), both are read before the write, and pc moves
past three bytes (R112, R113, R114). -/
def aluInstr (sel : BitVec 2) (a b : Byte) (s : State) : Except StopCause State := do
  let ra ← regOperand a
  let rb ← regOperand b
  let out ← alu s.params.lessSharesEqual sel (s.reg ra) (s.reg rb)
  return (aluWriteBack ra out s).advance 3

/-- ADD (R112). -/
def execAdd (a b : Byte) (s : State) : Host.Outcome State Fault Refusal := complete s (aluInstr aluAdd a b s)

/-- MUL (R113). -/
def execMul (a b : Byte) (s : State) : Host.Outcome State Fault Refusal := complete s (aluInstr aluMul a b s)

/-- CMP (R114, R115). -/
def execCmp (a b : Byte) (s : State) : Host.Outcome State Fault Refusal := complete s (aluInstr aluCmp a b s)

end Sys2Proof.Machine
end

