-- ==== Sys2Proof/Machine/ControlTransfer.lean ====
section
/-! DEFINITION. CALL, RET, JMP, JEQ, JNE (44_control_transfer.md) and HLT (40_control_unit.md rule R94). -/

namespace Sys2Proof.Machine

/-- The return address CALL pushes, `p + 2`, as a byte. It fits for every CALL that gets past its fetch (R130); the low 8
bits are taken of any other (notes/assumptions/10.md). -/
def returnAddress (s : State) : Byte := (s.pc + 2#9).setWidth 8

/-- CALL (R130): the target is read after the push, so CALL R7 jumps to the new SP (decision D16). -/
def execCall (a : Byte) (s : State) : Host.Outcome State Fault Refusal :=
  complete s do
    let ra ← regOperand a
    let t ← pushByte (returnAddress s) s
    return t.setPc (toPc (t.reg ra))

/-- RET (R131). -/
def execRet (s : State) : Host.Outcome State Fault Refusal :=
  complete s do
    let (v, t) ← popByte s
    return t.setPc (toPc v)

/-- A jump through a register, or past its two bytes when it is not taken. The register field is checked either way
(R90). -/
def jumpIf (taken : Bool) (a : Byte) (s : State) : Except StopCause State := do
  let ra ← regOperand a
  return if taken then s.setPc (toPc (s.reg ra)) else s.advance 2

/-- JMP (R134). -/
def execJmp (a : Byte) (s : State) : Host.Outcome State Fault Refusal := complete s (jumpIf true a s)

/-- JEQ (R135). -/
def execJeq (a : Byte) (s : State) : Host.Outcome State Fault Refusal := complete s (jumpIf (equalSet s.fl) a s)

/-- JNE (R136). -/
def execJne (a : Byte) (s : State) : Host.Outcome State Fault Refusal := complete s (jumpIf (!equalSet s.fl) a s)

/-- HLT (R94). -/
def execHlt (s : State) : Host.Outcome State Fault Refusal := complete s (.error .halted)

end Sys2Proof.Machine
end

