-- ==== Sys2Proof/Machine/DataMovement.lean ====
section
/-! DEFINITION. LDI and PRN (41_data_movement.md). -/

namespace Sys2Proof.Machine

/-- LDI (R106). -/
def execLdi (a b : Byte) (s : State) : Host.Outcome State Fault Refusal :=
  complete s do
    let ra ← regOperand a
    return (s.setReg ra (immOperand b)).advance 3

/-- PRN (R108). -/
def execPrn (a : Byte) (s : State) : Host.Outcome State Fault Refusal :=
  complete s do
    let ra ← regOperand a
    return (s.emit (s.reg ra)).advance 2

end Sys2Proof.Machine
end

