-- ==== Sys2Proof/Machine/Stack.lean ====
section
/-! DEFINITION. PUSH and POP (43_stack.md). -/

namespace Sys2Proof.Machine

/-- PUSH (R124): the register is read before SP changes, so PUSH R7 pushes the old SP (decision D14). -/
def execPush (a : Byte) (s : State) : Host.Outcome State Fault Refusal :=
  complete s do
    let ra ← regOperand a
    let t ← pushByte (s.reg ra) s
    return t.advance 2

/-- POP (R125): the register is written after SP is incremented, so POP R7 leaves the popped value (decision D15). -/
def execPop (a : Byte) (s : State) : Host.Outcome State Fault Refusal :=
  complete s do
    let ra ← regOperand a
    let (v, t) ← popByte s
    return (t.setReg ra v).advance 2

end Sys2Proof.Machine
end

