-- ==== Sys2Proof/Machine/Dispatch.lean ====
section
/-! DEFINITION. The dispatch table: one meaning per instruction (R72, R88, R92). -/

namespace Sys2Proof.Machine

def exec (i : Instr) (s : State) : Host.Outcome State Fault Refusal :=
  match i with
  | .hlt => Sys2Proof.Machine.execHlt s
  | .ldi a b => Sys2Proof.Machine.execLdi a b s
  | .prn a => Sys2Proof.Machine.execPrn a s
  | .mul a b => Sys2Proof.Machine.execMul a b s
  | .add a b => Sys2Proof.Machine.execAdd a b s
  | .push a => Sys2Proof.Machine.execPush a s
  | .pop a => Sys2Proof.Machine.execPop a s
  | .ret => Sys2Proof.Machine.execRet s
  | .call a => Sys2Proof.Machine.execCall a s
  | .cmp a b => Sys2Proof.Machine.execCmp a b s
  | .jne a => Sys2Proof.Machine.execJne a s
  | .jeq a => Sys2Proof.Machine.execJeq a s
  | .jmp a => Sys2Proof.Machine.execJmp a s

end Sys2Proof.Machine
end

