-- ==== Sys2Proof/Machine/Fetch.lean ====
section
/-! DEFINITION. The instruction fetch unit (40_control_unit.md rules R86, R87), the stop on an unrecognised opcode (R89),
and where an instruction's bytes lie. -/

namespace Sys2Proof.Machine

/-- What the three fetch reads end in. -/
inductive FetchResult where
  /-- All three latches are loaded. -/
  | latched (s : State)
  /-- A read was out of range: the core has stopped. -/
  | stopped (s : State)
deriving DecidableEq, Repr

/-- The three reads at p, p+1, p+2, in that order, for every opcode (R86, R87). The first out of range stops the step;
STOP_OPCODE is then IR, or 0 if the read of IR itself failed (R93). The latches loaded before it keep their bytes
(notes/assumptions/9.md). -/
def fetch (s : State) : FetchResult :=
  match memRead s.pc.toNat s with
  | .error c => .stopped (takeStop c 0#8 s)
  | .ok ir =>
    match memRead (s.pc.toNat + 1) s with
    | .error c => .stopped (takeStop c ir { s with ir := ir })
    | .ok opa =>
      match memRead (s.pc.toNat + 2) s with
      | .error c => .stopped (takeStop c ir { s with ir := ir, opa := opa })
      | .ok opb => .latched { s with ir := ir, opa := opa, opb := opb }

/-- The stop on an unrecognised opcode byte (R89). -/
def stopBadOpcode (s : State) : State := takeStop .badOpcode s.ir s

/-- Where an instruction can be put so that the next step fetches it: at pc, or at 0 when no fetch at pc can succeed. -/
def fetchableSlot (s : State) : Word9 := if s.pc.toNat ≤ 253 then s.pc else 0#9

/-- The three bytes of a table word, written at an address and the two after it. -/
def writeTableWord (m : Memory) (addr nbits w : Nat) : Memory :=
  ((m.write addr (tableByte nbits w 0)).write (addr + 1) (tableByte nbits w 1)).write (addr + 2) (tableByte nbits w 2)

/-- The state with a table word where the next step fetches, and the core RUNNING (notes/assumptions/7.md). -/
def placeTableWord (s : State) (nbits w : Nat) : State :=
  { s with
    pc := fetchableSlot s
    mem := writeTableWord s.mem (fetchableSlot s).toNat nbits w
    status := .running }

end Sys2Proof.Machine
end

