-- ==== Sys2Proof/Machine/Step.lean ====
section
/-! DEFINITION. One step of the core (40_control_unit.md rule R85). -/

namespace Sys2Proof.Machine

/-- `step()` (R85): fetch, decode, then the instruction's meaning, which begins with the operand check (R90). Enabled
only while RUN_STATUS is RUNNING; otherwise stuck (R152). -/
def step (s : State) : Host.Outcome State Fault Refusal :=
  if s.status = .running then
    match fetch s with
    | .stopped t => .next t
    | .latched t =>
      match decode t.ir t.opa t.opb with
      | .ok i => exec i t
      | .error _ => .next (stopBadOpcode t)
  else .fault (stuckReason s.status)

/-- `s` with an instruction where `step` fetches its next one, and RUNNING (notes/assumptions/7.md). -/
def State.withFetchWord (s : State) (nbits w : Nat) : State := placeTableWord s nbits w

end Sys2Proof.Machine
end

