-- ==== Sys2Proof/Machine/Ports.lean ====
section
/-! DEFINITION. The external interface (10_state.md rules R34 to R41) and boot (70_reset_and_hazards.md rules R164, R166):
what the host does between steps. These are no part of `step` (notes/assumptions/8.md). -/

namespace Sys2Proof.Machine

/-- What the host reads through the peek port (R40). -/
inductive PeekRequest where
  | pc
  | fl
  | reg (i : RegIndex)
  /-- A memory cell, by its 8-bit address. -/
  | cell (addr : Byte)
deriving DecidableEq, Repr

/-- An event the host performs at an input port (R34). -/
inductive HostEvent where
  | reset
  | start
  /-- One `load_we` event with `load_addr` and `load_data`. -/
  | load (addr data : Byte)
  | peek (q : PeekRequest)
deriving DecidableEq, Repr

/-- How a port answers. -/
inductive HostReply where
  /-- The event took effect. -/
  | done
  /-- The event has no effect in this status (R39, R41). -/
  | noEffect
  /-- The event is not accepted and changes nothing (R38, R41). -/
  | refused
  /-- What peek read, in 9 bits (the reply's width is the model's: notes/assumptions/13.md). -/
  | value (v : Word9)
deriving DecidableEq, Repr

/-- The `start` port (R39): READY to RUNNING, nothing else. -/
def startPort (s : State) : State × HostReply :=
  if s.status = .ready then ({ s with status := .running }, .done) else (s, .noEffect)

/-- The load port (R38): one cell, accepted only while not RUNNING. -/
def loadPort (addr data : Byte) (s : State) : State × HostReply :=
  if s.status = .running then (s, .refused) else ({ s with mem := s.mem.write addr.toNat data }, .done)

/-- The value a peek request asks for. -/
def peekValue (s : State) : PeekRequest → Word9
  | .pc => s.pc
  | .fl => s.fl.setWidth 9
  | .reg i => (s.reg i).setWidth 9
  | .cell addr => (s.mem.read addr.toNat).setWidth 9

/-- The peek port (R40): accepted only while not RUNNING, and it changes nothing. -/
def peekPort (q : PeekRequest) (s : State) : State × HostReply :=
  if s.status = .running then (s, .refused) else (s, .value (peekValue s q))

/-- One host event (R34 to R41); `reset` is accepted in any state (R35). -/
def hostAct (e : HostEvent) (s : State) : State × HostReply :=
  match e with
  | .reset => (resetAction s, .done)
  | .start => startPort s
  | .load addr data => loadPort addr data s
  | .peek q => peekPort q s

/-- What the output ports show at any time (R36, R37). -/
structure OutputPorts where
  status : BitVec 3
  stopPc : Word9
  stopOpcode : Byte
  stopInfo : Word9
  /-- The values of the `out_valid` events so far. -/
  outData : List Byte
deriving DecidableEq, Repr

/-- The output ports of a state. -/
def State.outputPorts (s : State) : OutputPorts :=
  { status := s.status.code
    stopPc := s.stopPc
    stopOpcode := s.stopOpcode
    stopInfo := s.stopInfo
    outData := s.out }

/-- Load bytes at successive addresses; bytes past address 255 cannot be named and are not loaded (R38, R164; decision
D32). -/
def loadFrom (addr : Nat) : List Byte → State → State
  | [], s => s
  | byte :: rest, s =>
    if addr < Config.memSize then loadFrom (addr + 1) rest (loadPort (BitVec.ofNat 8 addr) byte s).1 else s

/-- The boot sequence (R164): reset, load a program from address 0, start. -/
def boot (program : List Byte) (s : State) : State := (startPort (loadFrom 0 program (resetAction s))).1

/-- The launch state for a memory image and the model arguments (R166). The latches, which R166 does not name, hold what
reset leaves in them (notes/assumptions/12.md). -/
def launchState (p : Params) (image : Memory) : State :=
  { State.reset with
    regs := resetRegs p
    ir := p.irReset
    opa := p.opaReset
    opb := p.opbReset
    mem := image
    status := .running
    params := p }

end Sys2Proof.Machine
end

