-- ==== Sys2Proof/Safety.lean ====
section
/-! DEFINITION. What claims are stated in: the ends of a run (R97), the invariants the spec states of every state the core
can be in, and the states it can reach. -/

namespace Sys2Proof.Machine

/-- A run in this state is finished (R97). -/
def State.finished (s : State) : Bool := s.status.stopped

/-- A run ended by HLT, or by the source's second normal termination (R97). -/
def State.endedNormally (s : State) : Bool := decide (s.status = .halted ∨ s.status = .badOpcode)

/-- The values FL can hold (R26). -/
def State.flLegal (s : State) : Prop :=
  s.fl = 0#8 ∨ s.fl = 0b00000100#8 ∨ s.fl = 0b00000010#8 ∨ (s.fl = 0b00000001#8 ∧ s.params.lessSharesEqual = false)

/-- What the stop registers say in each status (R29, R141, R147). -/
def State.stopReportLegal (s : State) : Prop :=
  match s.status with
  | .ready => s.stopPc = 0#9 ∧ s.stopOpcode = 0#8 ∧ s.stopInfo = 0#9
  | .running => s.stopPc = 0#9 ∧ s.stopOpcode = 0#8 ∧ s.stopInfo = 0#9
  | .halted => s.stopPc = s.pc ∧ s.stopOpcode = 0x01#8 ∧ s.stopInfo = 0#9
  | .badOpcode => s.stopPc = s.pc ∧ (∀ op : Op, s.stopOpcode ≠ op.code) ∧ s.stopInfo = 0#9
  | .addressFault => s.stopPc = s.pc ∧ 254 ≤ s.pc.toNat ∧ s.stopInfo = 256#9
  | .registerIndexFault =>
      s.stopPc = s.pc ∧ (∃ op : Op, s.stopOpcode = op.code ∧ op.control.aKind = .register) ∧
        8 ≤ s.stopInfo.toNat ∧ s.stopInfo.toNat ≤ 255
  | .stackFault =>
      s.stopPc = s.pc ∧
        (((s.stopOpcode = 0x45#8 ∨ s.stopOpcode = 0x50#8) ∧ s.sp = 0#8 ∧ s.stopInfo = 0#9) ∨
          ((s.stopOpcode = 0x46#8 ∨ s.stopOpcode = 0x11#8) ∧ s.sp = 255#8 ∧ s.stopInfo = 255#9))
  | .aluFault => False

/-- The invariant of the core. -/
structure Inv (s : State) : Prop where
  /-- Memory keeps its canonical form and lists no cell outside 0..255 (R31, R62). -/
  memWf : s.mem.wf = true
  /-- pc holds 0 to 256 (R20). -/
  pcRange : s.pc.toNat ≤ 256
  /-- FL holds one of the values of R26. -/
  flLegal : s.flLegal
  /-- The status and the stop registers agree, and ALU_FAULT is never reached (R29, R141, R143). -/
  stopReport : s.stopReportLegal

/-- The states the core can reach: a reset, from whatever state and memory it finds and under any model arguments, then
any interleaving of steps and host events. -/
inductive Reachable : State → Prop where
  | reset (s : State) (h : s.mem.wf = true) : Reachable (resetAction s)
  | step (s t : State) (h : Reachable s) (hs : Sys2Proof.Machine.step s = .next t) : Reachable t
  | host (s : State) (e : HostEvent) (h : Reachable s) : Reachable (hostAct e s).1

end Sys2Proof.Machine
end

