-- ==== Sys2Proof/Certificates/Slice0/Obligations.lean ====
section
/-! DEFINITION. The statements for the provers. Each is written in terms of the fields of State, so that it reads beside
the rule it cites; D<n> in a docstring is the spec's own decision that the cited rule carries. -/

namespace Sys2Proof.Statements

open Sys2Proof.Machine

/-- The state after a stop in `s` with this status and STOP_INFO, IR being in its latch: nothing else changes (R93). -/
def stoppedWith (status : RunStatus) (info : Word9) (s : State) : State :=
  { s with status := status, stopPc := s.pc, stopOpcode := s.ir, stopInfo := info }

/-- The stop on a register field that holds `byte` (R90, R145). -/
def registerStop (byte : Byte) (s : State) : State := stoppedWith .registerIndexFault (byte.setWidth 9) s

/-- The state with the three bytes at pc in the fetch latches (R86). -/
def latched (s : State) : State :=
  { s with
    ir := s.mem.read s.pc.toNat
    opa := s.mem.read (s.pc.toNat + 1)
    opb := s.mem.read (s.pc.toNat + 2) }

/-- Registers, FL, memory, pc, output and model arguments are the same: what a stop leaves alone (R148). -/
def sameProgramState (s t : State) : Prop :=
  t.regs = s.regs ∧ t.fl = s.fl ∧ t.mem = s.mem ∧ t.pc = s.pc ∧ t.out = s.out ∧ t.params = s.params

/-- The run status, the stop registers, the latches and the model arguments are the same. -/
def sameControlState (s t : State) : Prop :=
  t.status = s.status ∧ t.stopPc = s.stopPc ∧ t.stopOpcode = s.stopOpcode ∧ t.stopInfo = s.stopInfo ∧
    t.ir = s.ir ∧ t.opa = s.opa ∧ t.opb = s.opb ∧ t.params = s.params

/-- "AddressFault from the fetch if p >= 254", for the opcode byte `op`. -/
def fetchFaultsAtEnd (op : Byte) : Prop :=
  ∀ s : State, s.status = .running → 254 ≤ s.pc.toNat → s.pc.toNat ≤ 255 → s.mem.read s.pc.toNat = op →
    ∃ t, step s = .next t ∧ t.status = .addressFault ∧ t.stopPc = s.pc ∧ t.stopOpcode = op ∧ t.stopInfo = 256#9 ∧
      sameProgramState s t

/-- The 13 opcode bytes of the table of R70, in its order. -/
def opcodeBytes : List Byte :=
  [0x01#8, 0x82#8, 0x47#8, 0xA2#8, 0xA0#8, 0x45#8, 0x46#8, 0x11#8, 0x50#8, 0xA7#8, 0x56#8, 0x55#8, 0x54#8]

/-- The opcode bytes of the instructions whose a field is a register (R69). -/
def opcodesWithRegisterA : List Byte :=
  [0x82#8, 0x47#8, 0xA2#8, 0xA0#8, 0x45#8, 0x46#8, 0x50#8, 0xA7#8, 0x56#8, 0x55#8, 0x54#8]

/-- The opcode bytes of the instructions whose b field is a register (R69). -/
def opcodesWithRegisterB : List Byte := [0xA2#8, 0xA0#8, 0xA7#8]

/-- The status a step of a running core ends with: the first cause of R149 that applies, else HALTED for HLT, else
RUNNING. -/
def statusAfterStep (s : State) : RunStatus :=
  let ir := s.mem.read s.pc.toNat
  let a := s.mem.read (s.pc.toNat + 1)
  let b := s.mem.read (s.pc.toNat + 2)
  if 254 ≤ s.pc.toNat then .addressFault
  else if ir ∉ opcodeBytes then .badOpcode
  else if ir ∈ opcodesWithRegisterA ∧ 8 ≤ a.toNat then .registerIndexFault
  else if ir ∈ opcodesWithRegisterB ∧ 8 ≤ b.toNat then .registerIndexFault
  else if (ir = 0x45#8 ∨ ir = 0x50#8) ∧ s.sp = 0#8 then .stackFault
  else if (ir = 0x46#8 ∨ ir = 0x11#8) ∧ s.sp = 255#8 then .stackFault
  else if ir = 0x01#8 then .halted
  else .running

/-- Two states that a program cannot tell apart by FL: the same but for FL, and the same Equal bit in FL (R24). -/
def sameButHiddenFlags (s t : State) : Prop :=
  { s with fl := 0#8 } = { t with fl := 0#8 } ∧ s.fl.getLsbD 2 = t.fl.getLsbD 2

/-- Two runs end alike: in next states related by `sameButHiddenFlags`, or stuck for the same reason. -/
def sameOutcomes : Host.Outcome State Fault Refusal → Host.Outcome State Fault Refusal → Prop
  | .next s, .next t => sameButHiddenFlags s t
  | .fault e, .fault f => e = f
  | .refused e, .refused f => e = f
  | _, _ => False

/-- PUSH a, run n times one after another. -/
def pushTimes (a : Byte) : Nat → State → Host.Outcome State Fault Refusal
  | 0, s => .next s
  | n + 1, s =>
    match exec (.push a) s with
    | .next t => pushTimes a n t
    | .fault f => .fault f
    | .refused r => .refused r

end Sys2Proof.Statements

open Sys2Proof Sys2Proof.Machine Sys2Proof.Statements

/-! ### Encoding and decoding -/

/-- R85: a running core whose bytes at pc decode to `i` runs `i` in the state with its latches loaded; `step` adds nothing
else around `exec`. -/
def Obligations.StepRunsDecodedInstruction : Prop :=
  ∀ (s : State) (i : Instr), s.status = .running → s.pc.toNat ≤ 253 →
    decode (s.mem.read s.pc.toNat) (s.mem.read (s.pc.toNat + 1)) (s.mem.read (s.pc.toNat + 2)) = .ok i →
    step s = exec i (latched s)

/-- Words written out bit by bit from the encodings of R65, R70 and the instruction rules' examples. -/
def Obligations.SampleWordsDecode : Prop :=
  decode 0b00000001#8 0xFF#8 0xFF#8 = .ok .hlt ∧
  decode 0b10000010#8 0b00000000#8 0b00001000#8 = .ok (.ldi 0 8) ∧
  decode 0b01000111#8 0b00000000#8 0x01#8 = .ok (.prn 0) ∧
  decode 0b10100000#8 0b00000000#8 0b00000001#8 = .ok (.add 0 1) ∧
  decode 0b10100010#8 0b00000111#8 0b00000001#8 = .ok (.mul 7 1) ∧
  decode 0b10100111#8 0b00000000#8 0b00000001#8 = .ok (.cmp 0 1) ∧
  decode 0b01000101#8 0b00000011#8 0x46#8 = .ok (.push 3) ∧
  decode 0b01000110#8 0b00000001#8 0x11#8 = .ok (.pop 1) ∧
  decode 0b00010001#8 0b11001000#8 0b11001000#8 = .ok .ret ∧
  decode 0b01010000#8 0b00000010#8 0x47#8 = .ok (.call 2) ∧
  decode 0b01010110#8 0b00000011#8 0x01#8 = .ok (.jne 3) ∧
  decode 0b01010101#8 0b00000011#8 0x01#8 = .ok (.jeq 3) ∧
  decode 0b01010100#8 0b00000010#8 0x00#8 = .ok (.jmp 2) ∧
  decode 0b00000000#8 0x00#8 0x00#8 = .error (.unrecognisedOpcode 0b00000000#8)

/-- Decode and encode agree both ways, for every instruction with every operand byte, well formed or not: the bytes of
`encode i`, whatever follows them, are read as `i`; and three latched bytes are read as `i` exactly when `encode i` is how
they begin. -/
def Obligations.DecodeInvertsEncode : Prop :=
  (∀ (i : Instr) (rest : List Byte), decodeBytes (encode i ++ rest) = .ok (i, rest)) ∧
  (∀ (i : Instr) (ir a b : Byte), decode ir a b = .ok i ↔ encode i <+: [ir, a, b])

/-- R72: an exact match of the opcode byte against the 13 values; the operand bytes take no part; every other byte is
unrecognised. -/
def Obligations.DecoderMatchesWholeOpcode : Prop :=
  ∀ ir : Byte,
    (ir ∈ opcodeBytes ∧ ∃ op : Op, op.code = ir ∧ ∀ a b, ∃ i, decode ir a b = .ok i ∧ i.op = op) ∨
    (ir ∉ opcodeBytes ∧ ∀ a b, decode ir a b = .error (.unrecognisedOpcode ir))

/-- The field structure R71 observes in the 13 opcodes (an observation the spec derives from R70, not a decoding rule):
bits 7:6 are the operand count, bit 5 marks the ALU operations, bit 4 the instructions that set pc otherwise than to
p + length. -/
def Obligations.OpcodeBitsShowLengthAndKind : Prop :=
  ∀ op : Op,
    op.control.length = 1 + (op.code >>> 6).toNat ∧
    op.code.getLsbD 5 = op.control.aluOp.isSome ∧
    op.code.getLsbD 4 = decide (op.control.pcSel ≠ .seq ∧ op.control.pcSel ≠ .hold)

/-- The bytes an instruction does not use never affect which instruction it is (R68). -/
def Obligations.UnusedBytesDoNotMatter : Prop :=
  ∀ (ir a b a' b' : Byte) (op : Op), ir = op.code →
    (op.control.length = 1 → decode ir a b = decode ir a' b') ∧
    (op.control.length = 2 → decode ir a b = decode ir a b')

/-- A table word placed by the host's interface is the very instruction the next step runs, from any state (the model's
interface: notes/assumptions/7.md). -/
def Obligations.PlacedWordRunsNext : Prop :=
  ∀ (s : State) (nbits w : Nat) (i : Instr), decodeTableWord nbits w = some i →
    step (s.withFetchWord nbits w) = exec i (latched (s.withFetchWord nbits w)) ∧
    (s.withFetchWord nbits w).regs = s.regs ∧ (s.withFetchWord nbits w).fl = s.fl ∧
    (s.pc.toNat ≤ 253 → (s.withFetchWord nbits w).pc = s.pc)

/-! ### Memory -/

/-- R45 and R46: the two access primitives, inside and outside 0..255. -/
def Obligations.MemoryAccessPrimitives : Prop :=
  ∀ (s : State) (addr : Nat) (v : Byte),
    (addr < 256 → memRead addr s = .ok (s.mem.read addr)) ∧
    (256 ≤ addr → memRead addr s = .error (.addressFault addr)) ∧
    (addr < 256 → ∃ m, memWrite addr v s = .ok { s with mem := m } ∧ m.read addr = v ∧
      ∀ other, other ≠ addr → m.read other = s.mem.read other) ∧
    (256 ≤ addr → memWrite addr v s = .error (.addressFault addr))

/-- Only PUSH and CALL change memory, and only the cell at SP - 1 (R48, which the spec derives). -/
def Obligations.OnlyPushAndCallWriteMemory : Prop :=
  ∀ (i : Instr) (s t : State) (addr : Nat), exec i s = .next t → t.mem.read addr ≠ s.mem.read addr →
    (∃ a, i = .push a ∨ i = .call a) ∧ s.sp ≠ 0#8 ∧ addr = pushAddress s

/-- R168: a step's latches hold the bytes memory held before it, and the next fetch reads memory as the step left it. -/
def Obligations.WritesReachTheNextFetch : Prop :=
  ∀ s t : State, step s = .next t → s.pc.toNat ≤ 253 →
    t.ir = s.mem.read s.pc.toNat ∧ t.opa = s.mem.read (s.pc.toNat + 1) ∧ t.opb = s.mem.read (s.pc.toNat + 2) ∧
    ∀ u : State, u.mem = t.mem → u.pc.toNat ≤ 253 →
      ∃ v, fetch u = .latched v ∧ v.ir = t.mem.read u.pc.toNat ∧ v.opa = t.mem.read (u.pc.toNat + 1) ∧
        v.opb = t.mem.read (u.pc.toNat + 2)

/-! ### The step and its stops -/

/-- R86: the fetch loads the three latches, or stops the core with the address fault 256; nothing but the fetch raises that
fault (R144), and no instruction changes the latches. -/
def Obligations.FetchLoadsOrFaults : Prop :=
  (∀ s : State, s.pc.toNat ≤ 253 → fetch s = .latched (latched s)) ∧
  (∀ s : State, s.status = .running → 254 ≤ s.pc.toNat → s.pc.toNat ≤ 256 →
    ∃ t, step s = .next t ∧ t.status = .addressFault ∧ t.stopPc = s.pc ∧ t.stopInfo = 256#9 ∧
      t.stopOpcode = (if s.pc.toNat = 256 then 0#8 else s.mem.read s.pc.toNat) ∧ sameProgramState s t) ∧
  (∀ (i : Instr) (s t : State), s.status = .running → exec i s = .next t → t.status ≠ .addressFault) ∧
  (∀ (i : Instr) (s t : State), exec i s = .next t → t.ir = s.ir ∧ t.opa = s.opa ∧ t.opb = s.opb)

/-- R73 and R89: a byte that is none of the 13 stops the core with BAD_OPCODE, or with ADDRESS_FAULT at 254 and 255. -/
def Obligations.UnrecognisedOpcodeStops : Prop :=
  ∀ s : State, s.status = .running → s.mem.read s.pc.toNat ∉ opcodeBytes →
    (s.pc.toNat ≤ 253 → step s = .next (stoppedWith .badOpcode 0#9 (latched s))) ∧
    (s.pc.toNat = 254 ∨ s.pc.toNat = 255 → ∃ t, step s = .next t ∧ t.status = .addressFault ∧ sameProgramState s t)

/-- A step answers a next state exactly while the core is RUNNING; a core that is not RUNNING is stuck, under the model's
names (notes/assumptions/6.md). R85, R152, R171. -/
def Obligations.StepEnabledExactlyWhileRunning : Prop :=
  ∀ s : State,
    (s.status = .running ↔ ∃ t, step s = .next t) ∧
    (s.status = .ready → step s = .fault .notStarted) ∧
    (s.status ≠ .ready → s.status ≠ .running → step s = .fault .coreStopped)

/-- R90: the a field is checked first, then the b field, on every instruction that has it, taken jump or not; the first
illegal field stops the step; a legal instruction never takes this fault. -/
def Obligations.RegisterFieldsCheckedFirst : Prop :=
  ∀ (op : Op) (a b : Byte) (s : State),
    (op.control.aKind = .register → 8 ≤ a.toNat → exec (op.build a b) s = .next (registerStop a s)) ∧
    (op.control.bKind = .register → a.toNat < 8 → 8 ≤ b.toNat → exec (op.build a b) s = .next (registerStop b s)) ∧
    (∀ t, s.status = .running → (op.build a b).wf = true → exec (op.build a b) s = .next t →
      t.status ≠ .registerIndexFault)

/-- R148, with the stop registers of R93 and R141: a step that stops the core leaves registers, memory, FL, pc and output
as they were, and no further step is enabled. -/
def Obligations.StopsArePrecise : Prop :=
  ∀ s t : State, s.pc.toNat ≤ 256 → step s = .next t → t.status ≠ .running →
    sameProgramState s t ∧ (∀ u, step t ≠ .next u) ∧ t.stopPc = s.pc ∧
    t.stopOpcode = (if s.pc.toNat = 256 then 0#8 else s.mem.read s.pc.toNat) ∧
    t.stopInfo =
      match t.status with
      | .addressFault => 256#9
      | .registerIndexFault =>
        if 8 ≤ (s.mem.read (s.pc.toNat + 1)).toNat then (s.mem.read (s.pc.toNat + 1)).setWidth 9
        else (s.mem.read (s.pc.toNat + 2)).setWidth 9
      | .stackFault => s.sp.setWidth 9
      | _ => 0#9

/-- R149: one step reports one cause, the first in the order fetch, opcode, field a, field b, stack (ALU_FAULT comes last
and no step reaches it). -/
def Obligations.StepStatusFollowsPriority : Prop :=
  ∀ s : State, s.status = .running → ∃ t, step s = .next t ∧ t.status = statusAfterStep s ∧
    (t.status = .registerIndexFault →
      t.stopInfo = if 8 ≤ (s.mem.read (s.pc.toNat + 1)).toNat then (s.mem.read (s.pc.toNat + 1)).setWidth 9
        else (s.mem.read (s.pc.toNat + 2)).setWidth 9)

/-- R152: a stopped core takes no step; every host event but reset leaves its status, stop registers, registers, FL, pc
and output alone; reset starts again at pc = 0 in READY. -/
def Obligations.OnlyResetLeavesAStop : Prop :=
  ∀ s : State, s.status.stopped = true →
    (∀ t, step s ≠ .next t) ∧
    (∀ e : HostEvent, e ≠ .reset →
      (hostAct e s).1 = { s with mem := (hostAct e s).1.mem }) ∧
    hostAct .start s = (s, .noEffect) ∧
    (hostAct .reset s).1.status = .ready ∧ (hostAct .reset s).1.pc = 0#9

/-- A program may run for ever: a JMP to its own address is taken at every step (the example of R96). -/
def Obligations.JumpToSelfRunsForever : Prop :=
  ∀ (s : State) (a : Byte) (h : a.toNat < 8), s.status = .running → s.pc.toNat ≤ 253 →
    s.mem.read s.pc.toNat = 0x54#8 → s.mem.read (s.pc.toNat + 1) = a →
    (s.reg ⟨a.toNat, h⟩).toNat = s.pc.toNat →
    ∀ n, ∃ t, core.run n s = .next t ∧ t.status = .running ∧ sameProgramState s t

/-! ### The instructions: encoding, effect, flags, faults -/

/-- R94. -/
def Obligations.HltHalts : Prop :=
  encode .hlt = [0x01#8] ∧ (∀ x y, decode 0x01#8 x y = .ok .hlt) ∧
  (∀ s : State, exec .hlt s = .next (stoppedWith .halted 0#9 s)) ∧
  fetchFaultsAtEnd 0x01#8

/-- R106. The register check is D5, the fetch fault D4. -/
def Obligations.LdiLoadsImmediate : Prop :=
  ∀ a b : Byte,
    encode (.ldi a b) = [0x82#8, a, b] ∧ decode 0x82#8 a b = .ok (.ldi a b) ∧
    (∀ (s : State) (h : a.toNat < 8),
      exec (.ldi a b) s = .next { s with regs := s.regs.set a.toNat b, pc := s.pc + 3#9 }) ∧
    (∀ s : State, 8 ≤ a.toNat → exec (.ldi a b) s = .next (registerStop a s)) ∧
    fetchFaultsAtEnd 0x82#8

/-- R108. -/
def Obligations.PrnEmitsRegister : Prop :=
  ∀ a : Byte,
    encode (.prn a) = [0x47#8, a] ∧ (∀ y, decode 0x47#8 a y = .ok (.prn a)) ∧
    (∀ (s : State) (h : a.toNat < 8),
      exec (.prn a) s = .next { s with out := s.out ++ [s.reg ⟨a.toNat, h⟩], pc := s.pc + 2#9 }) ∧
    (∀ s : State, 8 ≤ a.toNat → exec (.prn a) s = .next (registerStop a s)) ∧
    fetchFaultsAtEnd 0x47#8

/-- R112. -/
def Obligations.AddAddsModulo256 : Prop :=
  ∀ a b : Byte,
    encode (.add a b) = [0xA0#8, a, b] ∧ decode 0xA0#8 a b = .ok (.add a b) ∧
    (∀ (s : State) (ha : a.toNat < 8) (hb : b.toNat < 8),
      exec (.add a b) s =
        .next { s with
          regs := s.regs.set a.toNat
            (BitVec.ofNat 8 (((s.reg ⟨a.toNat, ha⟩).toNat + (s.reg ⟨b.toNat, hb⟩).toNat) % 256))
          pc := s.pc + 3#9 }) ∧
    (∀ s : State, 8 ≤ a.toNat → exec (.add a b) s = .next (registerStop a s)) ∧
    (∀ s : State, a.toNat < 8 → 8 ≤ b.toNat → exec (.add a b) s = .next (registerStop b s)) ∧
    fetchFaultsAtEnd 0xA0#8

/-- R113. -/
def Obligations.MulMultipliesModulo256 : Prop :=
  ∀ a b : Byte,
    encode (.mul a b) = [0xA2#8, a, b] ∧ decode 0xA2#8 a b = .ok (.mul a b) ∧
    (∀ (s : State) (ha : a.toNat < 8) (hb : b.toNat < 8),
      exec (.mul a b) s =
        .next { s with
          regs := s.regs.set a.toNat
            (BitVec.ofNat 8 (((s.reg ⟨a.toNat, ha⟩).toNat * (s.reg ⟨b.toNat, hb⟩).toNat) % 256))
          pc := s.pc + 3#9 }) ∧
    (∀ s : State, 8 ≤ a.toNat → exec (.mul a b) s = .next (registerStop a s)) ∧
    (∀ s : State, a.toNat < 8 → 8 ≤ b.toNat → exec (.mul a b) s = .next (registerStop b s)) ∧
    fetchFaultsAtEnd 0xA2#8

/-- R114, with the flag pattern of R115. -/
def Obligations.CmpReplacesFlags : Prop :=
  ∀ a b : Byte,
    encode (.cmp a b) = [0xA7#8, a, b] ∧ decode 0xA7#8 a b = .ok (.cmp a b) ∧
    (∀ (s : State) (ha : a.toNat < 8) (hb : b.toNat < 8),
      exec (.cmp a b) s =
        .next { s with
          fl :=
            if (s.reg ⟨a.toNat, ha⟩).toNat = (s.reg ⟨b.toNat, hb⟩).toNat then 0b00000100#8
            else if (s.reg ⟨b.toNat, hb⟩).toNat < (s.reg ⟨a.toNat, ha⟩).toNat then 0b00000010#8
            else if s.params.lessSharesEqual then 0b00000100#8 else 0b00000001#8
          pc := s.pc + 3#9 }) ∧
    (∀ s : State, 8 ≤ a.toNat → exec (.cmp a b) s = .next (registerStop a s)) ∧
    (∀ s : State, a.toNat < 8 → 8 ≤ b.toNat → exec (.cmp a b) s = .next (registerStop b s)) ∧
    fetchFaultsAtEnd 0xA7#8

/-- R124, with the push of R121: the register is read before SP changes, for R7 too. -/
def Obligations.PushStoresBelowSp : Prop :=
  ∀ a : Byte,
    encode (.push a) = [0x45#8, a] ∧ (∀ y, decode 0x45#8 a y = .ok (.push a)) ∧
    (∀ (s : State) (h : a.toNat < 8), s.sp ≠ 0#8 →
      exec (.push a) s =
        .next { s with
          regs := s.regs.set 7 (s.sp - 1#8)
          mem := s.mem.write (s.sp.toNat - 1) (s.reg ⟨a.toNat, h⟩)
          pc := s.pc + 2#9 }) ∧
    (∀ s : State, a.toNat < 8 → s.sp = 0#8 → exec (.push a) s = .next (stoppedWith .stackFault 0#9 s)) ∧
    (∀ s : State, 8 ≤ a.toNat → exec (.push a) s = .next (registerStop a s)) ∧
    fetchFaultsAtEnd 0x45#8

/-- R125, with the pop of R122: the register is written after SP is incremented, for R7 too. -/
def Obligations.PopLoadsFromSp : Prop :=
  ∀ a : Byte,
    encode (.pop a) = [0x46#8, a] ∧ (∀ y, decode 0x46#8 a y = .ok (.pop a)) ∧
    (∀ (s : State) (h : a.toNat < 8), s.sp ≠ 255#8 →
      exec (.pop a) s =
        .next { s with
          regs := (s.regs.set 7 (s.sp + 1#8)).set a.toNat (s.mem.read s.sp.toNat)
          pc := s.pc + 2#9 }) ∧
    (∀ s : State, a.toNat < 8 → s.sp = 255#8 → exec (.pop a) s = .next (stoppedWith .stackFault 255#9 s)) ∧
    (∀ s : State, 8 ≤ a.toNat → exec (.pop a) s = .next (registerStop a s)) ∧
    fetchFaultsAtEnd 0x46#8

/-- R130: the return address p + 2 is pushed, then the target is read, so that CALL R7 goes to the new SP. A CALL executes
only at p <= 253 (R87), which is the hypothesis on pc. -/
def Obligations.CallPushesReturnAddress : Prop :=
  ∀ a : Byte,
    encode (.call a) = [0x50#8, a] ∧ (∀ y, decode 0x50#8 a y = .ok (.call a)) ∧
    (∀ (s : State) (h : a.toNat < 8), s.sp ≠ 0#8 → s.pc.toNat ≤ 253 →
      exec (.call a) s =
        .next { s with
          regs := s.regs.set 7 (s.sp - 1#8)
          mem := s.mem.write (s.sp.toNat - 1) (BitVec.ofNat 8 (s.pc.toNat + 2))
          pc := BitVec.ofNat 9 (if a.toNat = 7 then s.sp.toNat - 1 else (s.reg ⟨a.toNat, h⟩).toNat) }) ∧
    (∀ s : State, a.toNat < 8 → s.sp = 0#8 → exec (.call a) s = .next (stoppedWith .stackFault 0#9 s)) ∧
    (∀ s : State, 8 ≤ a.toNat → exec (.call a) s = .next (registerStop a s)) ∧
    fetchFaultsAtEnd 0x50#8

/-- R131, with the pop of R122. -/
def Obligations.RetPopsIntoPc : Prop :=
  encode .ret = [0x11#8] ∧ (∀ x y, decode 0x11#8 x y = .ok .ret) ∧
  (∀ s : State, s.sp ≠ 255#8 →
    exec .ret s =
      .next { s with
        regs := s.regs.set 7 (s.sp + 1#8)
        pc := BitVec.ofNat 9 (s.mem.read s.sp.toNat).toNat }) ∧
  (∀ s : State, s.sp = 255#8 → exec .ret s = .next (stoppedWith .stackFault 255#9 s)) ∧
  fetchFaultsAtEnd 0x11#8

/-- R134. -/
def Obligations.JmpJumpsToRegister : Prop :=
  ∀ a : Byte,
    encode (.jmp a) = [0x54#8, a] ∧ (∀ y, decode 0x54#8 a y = .ok (.jmp a)) ∧
    (∀ (s : State) (h : a.toNat < 8),
      exec (.jmp a) s = .next { s with pc := BitVec.ofNat 9 (s.reg ⟨a.toNat, h⟩).toNat }) ∧
    (∀ s : State, 8 ≤ a.toNat → exec (.jmp a) s = .next (registerStop a s)) ∧
    fetchFaultsAtEnd 0x54#8

/-- R135. -/
def Obligations.JeqJumpsWhenEqual : Prop :=
  ∀ a : Byte,
    encode (.jeq a) = [0x55#8, a] ∧ (∀ y, decode 0x55#8 a y = .ok (.jeq a)) ∧
    (∀ (s : State) (h : a.toNat < 8), s.fl.getLsbD 2 = true →
      exec (.jeq a) s = .next { s with pc := BitVec.ofNat 9 (s.reg ⟨a.toNat, h⟩).toNat }) ∧
    (∀ s : State, a.toNat < 8 → s.fl.getLsbD 2 = false → exec (.jeq a) s = .next { s with pc := s.pc + 2#9 }) ∧
    (∀ s : State, 8 ≤ a.toNat → exec (.jeq a) s = .next (registerStop a s)) ∧
    fetchFaultsAtEnd 0x55#8

/-- R136. -/
def Obligations.JneJumpsWhenNotEqual : Prop :=
  ∀ a : Byte,
    encode (.jne a) = [0x56#8, a] ∧ (∀ y, decode 0x56#8 a y = .ok (.jne a)) ∧
    (∀ (s : State) (h : a.toNat < 8), s.fl.getLsbD 2 = false →
      exec (.jne a) s = .next { s with pc := BitVec.ofNat 9 (s.reg ⟨a.toNat, h⟩).toNat }) ∧
    (∀ s : State, a.toNat < 8 → s.fl.getLsbD 2 = true → exec (.jne a) s = .next { s with pc := s.pc + 2#9 }) ∧
    (∀ s : State, 8 ≤ a.toNat → exec (.jne a) s = .next (registerStop a s)) ∧
    fetchFaultsAtEnd 0x56#8

/-! ### ALU and flags -/

/-- R110, with the arithmetic of R116: the four select values, and which instructions drive the ALU. -/
def Obligations.AluSelects : Prop :=
  (∀ (share : Bool) (u v : Byte),
    alu share 0#2 u v = .ok (.result (BitVec.ofNat 8 ((u.toNat + v.toNat) % 256))) ∧
    alu share 1#2 u v = .ok (.result (BitVec.ofNat 8 ((u.toNat * v.toNat) % 256))) ∧
    alu share 2#2 u v = .ok (.flags (cmpFlags share u v)) ∧
    alu share 3#2 u v = .error (.aluFault 3#2) ∧
    alu share 0#2 u v = alu share 0#2 v u ∧ alu share 1#2 u v = alu share 1#2 v u) ∧
  (∀ op : Op, op.control.aluOp =
    if op.code = 0xA0#8 then some 0#2 else if op.code = 0xA2#8 then some 1#2
    else if op.code = 0xA7#8 then some 2#2 else none)

/-- R115: exactly one relation holds, and FL receives exactly one pattern. -/
def Obligations.CompareFlagPattern : Prop :=
  ∀ u v : Byte,
    (u.toNat = v.toNat → ∀ share, cmpFlags share u v = 0b00000100#8) ∧
    (u.toNat > v.toNat → ∀ share, cmpFlags share u v = 0b00000010#8) ∧
    (u.toNat < v.toNat → cmpFlags false u v = 0b00000001#8 ∧ cmpFlags true u v = 0b00000100#8)

/-- R111 and R143: select 3 stops the core with ALU_FAULT, and no instruction and no step reaches it. -/
def Obligations.AluFaultIsUnreachable : Prop :=
  (∀ (s : State) (a b : Byte), a.toNat < 8 → b.toNat < 8 →
    complete s (aluInstr 3#2 a b s) = .next (stoppedWith .aluFault 3#9 s)) ∧
  (∀ op : Op, op.control.aluOp ≠ some 3#2) ∧
  (∀ (i : Instr) (s t : State), s.status = .running → exec i s = .next t → t.status ≠ .aluFault) ∧
  (∀ s t : State, step s = .next t → t.status ≠ .aluFault)

/-- After CMP, under the default flag layout JEQ jumps and JNE falls through exactly when the registers are equal (the
testable property quoted in R136); under the other layout Less behaves as Equal (D10). -/
def Obligations.CompareThenConditionalJump : Prop :=
  ∀ (s t : State) (a b c : Byte) (ha : a.toNat < 8) (hb : b.toNat < 8) (hc : c.toNat < 8),
    exec (.cmp a b) s = .next t →
    let equalReported : Prop :=
      (s.reg ⟨a.toNat, ha⟩).toNat = (s.reg ⟨b.toNat, hb⟩).toNat ∨
        (s.params.lessSharesEqual = true ∧ (s.reg ⟨a.toNat, ha⟩).toNat < (s.reg ⟨b.toNat, hb⟩).toNat)
    let target := BitVec.ofNat 9 (s.reg ⟨c.toNat, hc⟩).toNat
    (equalReported → exec (.jeq c) t = .next { t with pc := target } ∧
      exec (.jne c) t = .next { t with pc := t.pc + 2#9 }) ∧
    (¬ equalReported → exec (.jeq c) t = .next { t with pc := t.pc + 2#9 } ∧
      exec (.jne c) t = .next { t with pc := target })

/-- R24: FL is written only by CMP, which replaces it whatever it was; it is read only by JEQ and JNE, and only its bit
2; no step shows a program the other bits, and the peek port shows them all. -/
def Obligations.FlagRegisterAccess : Prop :=
  (∀ (i : Instr) (s t : State), (∀ a b, i ≠ .cmp a b) → exec i s = .next t → t.fl = s.fl) ∧
  (∀ (a b : Byte) (s : State) (f : Byte), a.toNat < 8 → b.toNat < 8 →
    exec (.cmp a b) { s with fl := f } = exec (.cmp a b) s) ∧
  (∀ (i : Instr) (s t : State) (f : Byte), (∀ a b, i ≠ .cmp a b) → (∀ a, i ≠ .jeq a ∧ i ≠ .jne a) →
    exec i s = .next t → exec i { s with fl := f } = .next { t with fl := f }) ∧
  (∀ (a : Byte) (s t : State) (f : Byte), f.getLsbD 2 = s.fl.getLsbD 2 →
    (exec (.jeq a) s = .next t → exec (.jeq a) { s with fl := f } = .next { t with fl := f }) ∧
    (exec (.jne a) s = .next t → exec (.jne a) { s with fl := f } = .next { t with fl := f })) ∧
  (∀ s t : State, sameButHiddenFlags s t → sameOutcomes (step s) (step t)) ∧
  (∀ s : State, s.status ≠ .running → hostAct (.peek .fl) s = (s, .value (BitVec.ofNat 9 s.fl.toNat)))

/-- Bits of FL other than Equal are never observable by a program: two runs from states that differ only in them go the
same way for ever, in everything but those bits (the last sentence but one of R24, over whole runs). -/
def Obligations.HiddenFlagsNeverObservable : Prop :=
  ∀ s t : State, sameButHiddenFlags s t → ∀ n, sameOutcomes (core.run n s) (core.run n t)

/-! ### What instructions change -/

/-- R91: the one pc write of every step, by the control word, SEQ without wrap; a step that stops leaves pc; no instruction
of length 1 advances pc by its length. -/
def Obligations.PcFollowsSelection : Prop :=
  (∀ (op : Op) (a b : Byte) (s t : State), s.status = .running → exec (op.build a b) s = .next t →
    (t.status ≠ .running → t.pc = s.pc) ∧
    (t.status = .running → ∀ r : RegIndex, (op.control.aKind = .register → r.val = a.toNat) →
      match op.control.pcSel with
      | .hold => t.pc = s.pc
      | .seq => t.pc = s.pc + BitVec.ofNat 9 op.control.length ∧
          (s.pc.toNat ≤ 253 → t.pc.toNat = s.pc.toNat + op.control.length)
      | .reg => t.pc.toNat = (s.reg r).toNat
      | .regIfESet => if s.fl.getLsbD 2 then t.pc.toNat = (s.reg r).toNat else t.pc = s.pc + 2#9
      | .regIfEClear => if s.fl.getLsbD 2 then t.pc = s.pc + 2#9 else t.pc.toNat = (s.reg r).toNat
      | .regAfterPush => t.pc.toNat = (t.reg r).toNat
      | .popped => t.pc.toNat = (s.mem.read s.sp.toNat).toNat)) ∧
  (∀ s t : State, step s = .next t → t.status ≠ .running → t.pc = s.pc) ∧
  (∀ op : Op, op.control.length = 1 → op.control.pcSel = .hold ∨ op.control.pcSel = .popped)

/-- The control word of R88 says what an instruction may write: x[a], SP, FL, the output, memory. -/
def Obligations.ControlWordBoundsEffects : Prop :=
  ∀ (op : Op) (a b : Byte) (s t : State), exec (op.build a b) s = .next t →
    (∀ r : RegIndex, t.reg r ≠ s.reg r →
      (op.control.writesReg = true ∧ r.val = a.toNat) ∨ (op.control.stackOp ≠ .none ∧ r.val = 7)) ∧
    (t.fl ≠ s.fl → op.control.writesFl = true) ∧
    (t.out ≠ s.out → op.control.emits = true) ∧
    (t.mem ≠ s.mem → op.control.stackOp = .push)

/-- Frame of the forms that only load a register: LDI, ADD, MUL. Nothing changes but x[a] and pc. An illegal register
field is the stop of R90. -/
def Obligations.RegisterLoadFrame : Prop :=
  ∀ (a b : Byte) (i : Instr) (s t : State), (i = .ldi a b ∨ i = .add a b ∨ i = .mul a b) → i.wf = true →
    exec i s = .next t →
    (∀ r : RegIndex, r.val ≠ a.toNat → t.reg r = s.reg r) ∧ t.fl = s.fl ∧
    (∀ addr, t.mem.read addr = s.mem.read addr) ∧ t.out = s.out ∧ sameControlState s t

/-- Frame of the forms that write no register: PRN, CMP, JMP, JEQ, JNE. PRN changes the output and pc, CMP changes FL and
pc, the jumps change pc alone. -/
def Obligations.NoRegisterWriteFrame : Prop :=
  ∀ (a b : Byte) (i : Instr) (s t : State),
    (i = .prn a ∨ i = .cmp a b ∨ i = .jmp a ∨ i = .jeq a ∨ i = .jne a) → i.wf = true → exec i s = .next t →
    (∀ r : RegIndex, t.reg r = s.reg r) ∧ (∀ addr, t.mem.read addr = s.mem.read addr) ∧ sameControlState s t ∧
    (i ≠ .cmp a b → t.fl = s.fl) ∧ (i ≠ .prn a → t.out = s.out)

/-- Frame of the storing forms: PUSH and CALL change SP, pc and the one byte at the address their push computes; with SP = 0
they change no register and no byte (STACK_FAULT). -/
def Obligations.StackStoreFrame : Prop :=
  ∀ (a : Byte) (i : Instr) (s t : State), (i = .push a ∨ i = .call a) → i.wf = true → exec i s = .next t →
    (∀ r : RegIndex, r.val ≠ 7 → t.reg r = s.reg r) ∧ t.fl = s.fl ∧ t.out = s.out ∧
    (∀ addr, addr ≠ pushAddress s → t.mem.read addr = s.mem.read addr) ∧
    (s.sp = 0#8 → t.regs = s.regs ∧ ∀ addr, t.mem.read addr = s.mem.read addr) ∧
    (s.sp ≠ 0#8 → sameControlState s t)

/-- Frame of the forms that read the stack: POP changes SP, x[a] and pc, RET changes SP and pc; memory keeps every byte, the
popped one too. -/
def Obligations.StackLoadFrame : Prop :=
  ∀ (a : Byte) (i : Instr) (s t : State), (i = .pop a ∨ i = .ret) → i.wf = true → exec i s = .next t →
    (∀ r : RegIndex, r.val ≠ 7 → (i = .pop a → r.val ≠ a.toNat) → t.reg r = s.reg r) ∧ t.fl = s.fl ∧ t.out = s.out ∧
    (∀ addr, t.mem.read addr = s.mem.read addr) ∧
    (s.sp = 255#8 → t.regs = s.regs) ∧ (s.sp ≠ 255#8 → sameControlState s t)

/-- R37: the stream gains one entry per executed PRN, in execution order, and nothing else writes it; it is empty after
reset. Over a run it only grows. -/
def Obligations.OutputStreamGrowsByPrn : Prop :=
  (∀ (i : Instr) (s t : State), (∀ a, i ≠ .prn a) → exec i s = .next t → t.out = s.out) ∧
  (∀ (a : Byte) (s : State) (h : a.toNat < 8), ∃ t, exec (.prn a) s = .next t ∧ t.out = s.out ++ [s.reg ⟨a.toNat, h⟩]) ∧
  (∀ (a : Byte) (s t : State), 8 ≤ a.toNat → exec (.prn a) s = .next t → t.out = s.out) ∧
  (∀ s : State, (hostAct .reset s).1.out = []) ∧
  (∀ (n : Nat) (s t : State), core.run n s = .next t → s.out <+: t.out)

/-! ### Stack -/

/-- "PUSH then POP on the same register is a round trip" (quoted in R128, which the spec derives): registers, SP among
them, are as before, and the cell below SP holds the register. -/
def Obligations.PushThenPopRoundTrip : Prop :=
  ∀ (s : State) (a : Byte) (h : a.toNat < 8), s.sp ≠ 0#8 →
    ∃ t u, exec (.push a) s = .next t ∧ exec (.pop a) t = .next u ∧ u.regs = s.regs ∧ u.fl = s.fl ∧
      u.mem.read (s.sp.toNat - 1) = s.reg ⟨a.toNat, h⟩ ∧
      (∀ addr, addr ≠ s.sp.toNat - 1 → u.mem.read addr = s.mem.read addr) ∧ u.pc = s.pc + 4#9

/-- "CALL then RET is a round trip" (quoted in R132, which the spec derives): a RET that finds SP and the pushed cell as
CALL left them goes to the instruction after the CALL, with SP as before it. -/
def Obligations.CallThenReturnRoundTrip : Prop :=
  ∀ (s : State) (a : Byte), a.toNat < 8 → s.sp ≠ 0#8 → s.pc.toNat ≤ 253 →
    ∃ t, exec (.call a) s = .next t ∧
      ∀ u : State, u.sp = t.sp → u.mem.read (s.sp.toNat - 1) = t.mem.read (s.sp.toNat - 1) →
        ∃ v, exec .ret u = .next v ∧ v.pc = s.pc + 2#9 ∧ v.sp = s.sp

/-- Exactly SP pushes succeed, filling the cells from SP - 1 down, and the next one is a STACK_FAULT (R127, which the spec
derives; from SP = 244 that is 244 pushes). -/
def Obligations.StackHoldsSpBytes : Prop :=
  ∀ (a : Byte) (h : a.toNat < 8) (s : State),
    (∀ n, n ≤ s.sp.toNat → ∃ t, pushTimes a n s = .next t ∧ t.sp.toNat = s.sp.toNat - n ∧ t.status = s.status ∧
      (a.toNat ≠ 7 → ∀ k, k < n → t.mem.read (s.sp.toNat - 1 - k) = s.reg ⟨a.toNat, h⟩) ∧
      (∀ addr, (addr < s.sp.toNat - n ∨ s.sp.toNat ≤ addr) → t.mem.read addr = s.mem.read addr)) ∧
    (∃ t, pushTimes a (s.sp.toNat + 1) s = .next t ∧ t.status = .stackFault ∧ t.sp = 0#8 ∧ t.stopInfo = 0#9)

/-! ### Reset and ports -/

/-- R35 and R161: the reset action, in any state and for every GPR_RESET. -/
def Obligations.ResetAction : Prop :=
  ∀ s : State, ∃ t, hostAct .reset s = (t, .done) ∧
    (∀ (k : Nat) (h : k < 7), t.reg ⟨k, by omega⟩ = s.params.gprReset[k]) ∧
    t.reg 7 = 244#8 ∧ t.pc = 0#9 ∧ t.fl = 0#8 ∧ t.status = .ready ∧
    t.stopPc = 0#9 ∧ t.stopOpcode = 0#8 ∧ t.stopInfo = 0#9 ∧ t.out = [] ∧ t.mem = s.mem ∧ t.params = s.params

/-- The values the spec gives for reset, in the model's reset state (R162), and, in the last clause, R5's default of
FL_LESS_SHARES_EQUAL: no value of the reset action but that of a model argument, which the model carries in State.params
(DESIGN CHOICE, notes/assumptions/1.md). R0 to R6, the latches and memory are the model's choice and no part of this. -/
def Obligations.ResetStateValues : Prop :=
  State.reset.sp = 244#8 ∧ State.reset.pc = 0#9 ∧ State.reset.fl = 0#8 ∧ State.reset.status = .ready ∧
  State.reset.stopPc = 0#9 ∧ State.reset.stopOpcode = 0#8 ∧ State.reset.stopInfo = 0#9 ∧ State.reset.out = [] ∧
  State.reset.params.lessSharesEqual = false

/-- R38 and R39: the load port and the start port. -/
def Obligations.LoadAndStartPorts : Prop :=
  ∀ (s : State) (addr data : Byte),
    (s.status ≠ .running → ∃ m, hostAct (.load addr data) s = ({ s with mem := m }, .done) ∧ m.read addr.toNat = data ∧
      ∀ other, other ≠ addr.toNat → m.read other = s.mem.read other) ∧
    (s.status = .running → hostAct (.load addr data) s = (s, .refused)) ∧
    (s.status = .ready → hostAct .start s = ({ s with status := .running }, .done)) ∧
    (s.status ≠ .ready → hostAct .start s = (s, .noEffect)) ∧
    (s.status = .running → ∃ t, step s = .next t)

/-- R40: peek reads pc, FL, any register and any cell while the core is not RUNNING, and changes nothing. -/
def Obligations.PeekPort : Prop :=
  ∀ s : State,
    (∀ q, s.status = .running → hostAct (.peek q) s = (s, .refused)) ∧
    (s.status ≠ .running →
      hostAct (.peek .pc) s = (s, .value s.pc) ∧
      hostAct (.peek .fl) s = (s, .value (BitVec.ofNat 9 s.fl.toNat)) ∧
      (∀ i, hostAct (.peek (.reg i)) s = (s, .value (BitVec.ofNat 9 (s.reg i).toNat))) ∧
      (∀ addr, hostAct (.peek (.cell addr)) s = (s, .value (BitVec.ofNat 9 (s.mem.read addr.toNat).toNat))))

/-- R36, with the codes of R28: the status port shows RUN_STATUS by its code, the stop ports the stop registers. -/
def Obligations.OutputPortsShowStatus : Prop :=
  ∀ s : State,
    s.outputPorts.status =
      (match s.status with
        | .ready => 0#3 | .running => 1#3 | .halted => 2#3 | .badOpcode => 3#3 | .addressFault => 4#3
        | .registerIndexFault => 5#3 | .stackFault => 6#3 | .aluFault => 7#3) ∧
    s.outputPorts.stopPc = s.stopPc ∧ s.outputPorts.stopOpcode = s.stopOpcode ∧
    s.outputPorts.stopInfo = s.stopInfo ∧ s.outputPorts.outData = s.out

/-- Boot (R164) from any state gives the launch state of R166 for the memory it left: the program from address 0, and what
memory held elsewhere. -/
def Obligations.BootGivesLaunchState : Prop :=
  ∀ (program : List Byte) (s : State), program.length ≤ 256 →
    boot program s = launchState s.params (boot program s).mem ∧
    ∀ addr, (boot program s).mem.read addr = program.getD addr (s.mem.read addr)

/-! ### Invariants -/

/-- The invariant holds right after reset. -/
def Obligations.ResetMeetsInvariant : Prop := Inv State.reset

/-- Every step keeps the invariant: memory in canonical form, pc at most 256, FL one of the values of R26, the stop registers
in agreement with the status, ALU_FAULT never reached. -/
def Obligations.StepKeepsInvariant : Prop := ∀ s t : State, Inv s → step s = .next t → Inv t

/-- Every host event keeps the invariant. -/
def Obligations.HostEventsKeepInvariant : Prop := ∀ (s : State) (e : HostEvent), Inv s → Inv (hostAct e s).1

/-- Every state the core can reach, from a reset in any state with any memory and any model arguments, meets the
invariant. -/
def Obligations.ReachableStatesMeetInvariant : Prop := ∀ s : State, Reachable s → Inv s
end

