-- ==== Sys2Proof/Laws/Decode.lean ====
section
/-! SUPPORT. The opcode map read both ways, and what the decoder can answer. -/

namespace Sys2Proof

theorem lookupOp_code (op : Op) : lookupOp op.code = some op := by cases op <;> rfl

/-- The lookup finds an opcode exactly at its byte. -/
theorem lookupOp_eq_some (ir : Byte) (op : Op) : lookupOp ir = some op ↔ ir = op.code := by
  constructor
  · intro h
    obtain ⟨row, hfind, hop⟩ := Option.map_eq_some_iff.mp h
    have hmem := List.mem_of_find?_eq_some hfind
    have hir : row.1 = ir := by simpa using List.find?_some hfind
    rw [← hir, ← hop]
    revert hmem
    generalize row = r
    revert r
    simp [opcodeMap, Op.code]
  · rintro rfl
    exact lookupOp_code op

/-- Everything the decoder can answer. -/
theorem decode_cases (ir a b : Byte) :
    (∃ op : Op, ir = op.code ∧ decode ir a b = .ok (op.build a b)) ∨
      ((∀ op : Op, ir ≠ op.code) ∧ decode ir a b = .error (.unrecognisedOpcode ir)) := by
  unfold decode
  cases h : lookupOp ir with
  | some op => exact .inl ⟨op, (lookupOp_eq_some ir op).mp h, rfl⟩
  | none =>
    refine .inr ⟨fun op hop => ?_, rfl⟩
    rw [hop, lookupOp_code] at h
    cases h

@[simp] theorem decode_code (op : Op) (a b : Byte) : decode op.code a b = .ok (op.build a b) := by
  rw [decode, lookupOp_code]

/-- A decoded instruction is built from the bytes it was decoded from. -/
theorem decode_eq_ok {ir a b : Byte} {i : Instr} (h : decode ir a b = .ok i) :
    ∃ op : Op, ir = op.code ∧ i = op.build a b := by
  obtain ⟨op, hir, hd⟩ | ⟨-, hd⟩ := decode_cases ir a b
  · rw [hd] at h; cases h; exact ⟨op, hir, rfl⟩
  · rw [hd] at h; cases h

/-- A rejected opcode is the byte the core reports (R89). -/
theorem decode_error {ir a b : Byte} {r : Rejection} (h : decode ir a b = .error r) :
    (∀ op : Op, ir ≠ op.code) ∧ r = .unrecognisedOpcode ir := by
  obtain ⟨op, -, hd⟩ | ⟨hne, hd⟩ := decode_cases ir a b
  · rw [hd] at h; cases h
  · rw [hd] at h; cases h; exact ⟨hne, rfl⟩

@[simp] theorem op_build (op : Op) (a b : Byte) : (op.build a b).op = op := by cases op <;> rfl

end Sys2Proof
end

