-- ==== Sys2Proof/Laws/Memory.lean ====
section
/-! SUPPORT. Memory: read after write, and every memory operation keeps the canonical form. -/

namespace Sys2Proof.Machine

/-! ### Read after write -/

theorem Memory.read_filter_same (m : Memory) (a : Nat) : Memory.read (m.filter (fun c => c.1 ≠ a)) a = Memory.unlisted := by
  induction m with
  | nil => rfl
  | cons c rest ih =>
    by_cases h : c.1 = a
    · simpa [List.filter_cons, h] using ih
    · simpa [List.filter_cons, h, Memory.read] using ih

theorem Memory.read_filter_other (m : Memory) (a b : Nat) (hab : b ≠ a) :
    Memory.read (m.filter (fun c => c.1 ≠ a)) b = m.read b := by
  induction m with
  | nil => rfl
  | cons c rest ih =>
    by_cases h : c.1 = a
    · have hb : c.1 ≠ b := by omega
      simpa [List.filter_cons, h, Memory.read, hb, show a ≠ b by omega] using ih
    · simp only [List.filter_cons, h, ne_eq, not_false_eq_true, decide_true, if_true, Memory.read]
      split
      · rfl
      · simpa using ih

theorem Memory.read_insert_other (m : Memory) (a b : Nat) (v : Byte) (hab : b ≠ a) :
    (m.insert a v).read b = m.read b := by
  induction m with
  | nil => simp [Memory.insert, Memory.read, hab.symm]
  | cons c rest ih =>
    simp only [Memory.insert]
    split
    · simp [Memory.read, hab.symm]
    · simp [Memory.read, ih]

theorem Memory.read_insert_same (m : Memory) (a : Nat) (v : Byte) (hm : ∀ c ∈ m, c.1 ≠ a) :
    (m.insert a v).read a = v := by
  induction m with
  | nil => simp [Memory.insert, Memory.read]
  | cons c rest ih =>
    have hc : c.1 ≠ a := hm c (by simp)
    simp only [Memory.insert]
    split
    · simp [Memory.read]
    · simp [Memory.read, hc, ih (fun d hd => hm d (by simp [hd]))]

/-- A read after a write to the same address gives the value written. -/
@[simp] theorem Memory.read_write_same (m : Memory) (a : Nat) (v : Byte) : (m.write a v).read a = v := by
  unfold Memory.write
  split
  · next h => rw [Memory.read_filter_same, h]
  · exact Memory.read_insert_same _ _ _ (by simp)

/-- A write leaves every other address alone. -/
theorem Memory.read_write_other (m : Memory) (a b : Nat) (v : Byte) (hab : b ≠ a) : (m.write a v).read b = m.read b := by
  unfold Memory.write
  split
  · exact Memory.read_filter_other m a b hab
  · rw [Memory.read_insert_other _ _ _ _ hab, Memory.read_filter_other m a b hab]

/-! ### The canonical form -/

theorem Memory.wfFrom_mono {m : Memory} {lo hi : Nat} (h : lo ≤ hi) (hm : Memory.wfFrom hi m = true) :
    Memory.wfFrom lo m = true := by
  cases m with
  | nil => rfl
  | cons c rest =>
    obtain ⟨a, v⟩ := c
    simp only [Memory.wfFrom, Bool.and_eq_true, decide_eq_true_eq] at hm ⊢
    exact ⟨⟨⟨by omega, hm.1.1.2⟩, hm.1.2⟩, hm.2⟩

theorem Memory.wfFrom_filter (m : Memory) (lo a : Nat) (hm : Memory.wfFrom lo m = true) :
    Memory.wfFrom lo (m.filter (fun c => c.1 ≠ a)) = true := by
  induction m generalizing lo with
  | nil => rfl
  | cons c rest ih =>
    obtain ⟨k, v⟩ := c
    simp only [Memory.wfFrom, Bool.and_eq_true, decide_eq_true_eq] at hm
    have hrest := ih (k + 1) hm.2
    by_cases h : k = a
    · subst h
      simpa [List.filter_cons] using Memory.wfFrom_mono (show lo ≤ k + 1 by omega) hrest
    · simp only [List.filter_cons, h, ne_eq, not_false_eq_true, decide_true, if_true, Memory.wfFrom, Bool.and_eq_true,
        decide_eq_true_eq]
      exact ⟨hm.1, hrest⟩

theorem Memory.wfFrom_insert (m : Memory) (lo a : Nat) (v : Byte) (hm : Memory.wfFrom lo m = true) (hlo : lo ≤ a)
    (ha : a < 256) (hv : v ≠ Memory.unlisted) (hfree : ∀ c ∈ m, c.1 ≠ a) : Memory.wfFrom lo (m.insert a v) = true := by
  induction m generalizing lo with
  | nil => simp [Memory.insert, Memory.wfFrom, hlo, ha, hv]
  | cons c rest ih =>
    obtain ⟨k, w⟩ := c
    simp only [Memory.wfFrom, Bool.and_eq_true, decide_eq_true_eq] at hm
    have hk : k ≠ a := hfree (k, w) (by simp)
    simp only [Memory.insert]
    split
    · next hlt =>
      simp only [Memory.wfFrom, Bool.and_eq_true, decide_eq_true_eq]
      exact ⟨⟨⟨hlo, ha⟩, hv⟩, ⟨⟨by omega, hm.1.1.2⟩, hm.1.2⟩, hm.2⟩
    · next hlt =>
      simp only [Memory.wfFrom, Bool.and_eq_true, decide_eq_true_eq]
      exact ⟨hm.1, ih (k + 1) hm.2 (by omega) (fun d hd => hfree d (by simp [hd]))⟩

/-- A write to an address that exists keeps the canonical form. -/
theorem Memory.wf_write (m : Memory) (a : Nat) (v : Byte) (hm : m.wf = true) (ha : a < 256) : (m.write a v).wf = true := by
  have hf := Memory.wfFrom_filter m 0 a hm
  unfold Memory.wf Memory.write
  split
  · exact hf
  · next hv => exact Memory.wfFrom_insert _ 0 a v hf (by omega) ha hv (by simp)

theorem reset_mem_wf : State.reset.mem.wf = true := rfl

theorem memWrite_keeps_wf {addr : Nat} {v : Byte} {s t : State} (h : memWrite addr v s = .ok t) (hm : s.mem.wf = true) :
    t.mem.wf = true := by
  unfold memWrite at h
  split at h
  · next ha =>
    cases h
    exact Memory.wf_write _ _ _ hm ha
  · cases h

theorem loadPort_keeps_wf (addr data : Byte) (s : State) (hm : s.mem.wf = true) :
    (loadPort addr data s).1.mem.wf = true := by
  unfold loadPort
  split
  · exact hm
  · exact Memory.wf_write _ _ _ hm addr.isLt

end Sys2Proof.Machine
end

