-- ==== Sys2Proof/Laws/State.lean ====
section
/-! SUPPORT. One lemma per field per update of State, so that no proof unfolds a record update, and the register file's
read-after-write laws. -/

namespace Sys2Proof.Machine

/-! ### setReg -/

@[simp] theorem setReg_regs (s : State) (i : RegIndex) (v : Byte) : (s.setReg i v).regs = s.regs.set i v := rfl
@[simp] theorem setReg_pc (s : State) (i : RegIndex) (v : Byte) : (s.setReg i v).pc = s.pc := rfl
@[simp] theorem setReg_fl (s : State) (i : RegIndex) (v : Byte) : (s.setReg i v).fl = s.fl := rfl
@[simp] theorem setReg_ir (s : State) (i : RegIndex) (v : Byte) : (s.setReg i v).ir = s.ir := rfl
@[simp] theorem setReg_opa (s : State) (i : RegIndex) (v : Byte) : (s.setReg i v).opa = s.opa := rfl
@[simp] theorem setReg_opb (s : State) (i : RegIndex) (v : Byte) : (s.setReg i v).opb = s.opb := rfl
@[simp] theorem setReg_mem (s : State) (i : RegIndex) (v : Byte) : (s.setReg i v).mem = s.mem := rfl
@[simp] theorem setReg_status (s : State) (i : RegIndex) (v : Byte) : (s.setReg i v).status = s.status := rfl
@[simp] theorem setReg_stopPc (s : State) (i : RegIndex) (v : Byte) : (s.setReg i v).stopPc = s.stopPc := rfl
@[simp] theorem setReg_stopOpcode (s : State) (i : RegIndex) (v : Byte) : (s.setReg i v).stopOpcode = s.stopOpcode := rfl
@[simp] theorem setReg_stopInfo (s : State) (i : RegIndex) (v : Byte) : (s.setReg i v).stopInfo = s.stopInfo := rfl
@[simp] theorem setReg_out (s : State) (i : RegIndex) (v : Byte) : (s.setReg i v).out = s.out := rfl
@[simp] theorem setReg_params (s : State) (i : RegIndex) (v : Byte) : (s.setReg i v).params = s.params := rfl

/-! ### setFl -/

@[simp] theorem setFl_regs (s : State) (v : Byte) : (s.setFl v).regs = s.regs := rfl
@[simp] theorem setFl_pc (s : State) (v : Byte) : (s.setFl v).pc = s.pc := rfl
@[simp] theorem setFl_fl (s : State) (v : Byte) : (s.setFl v).fl = v := rfl
@[simp] theorem setFl_ir (s : State) (v : Byte) : (s.setFl v).ir = s.ir := rfl
@[simp] theorem setFl_opa (s : State) (v : Byte) : (s.setFl v).opa = s.opa := rfl
@[simp] theorem setFl_opb (s : State) (v : Byte) : (s.setFl v).opb = s.opb := rfl
@[simp] theorem setFl_mem (s : State) (v : Byte) : (s.setFl v).mem = s.mem := rfl
@[simp] theorem setFl_status (s : State) (v : Byte) : (s.setFl v).status = s.status := rfl
@[simp] theorem setFl_stopPc (s : State) (v : Byte) : (s.setFl v).stopPc = s.stopPc := rfl
@[simp] theorem setFl_stopOpcode (s : State) (v : Byte) : (s.setFl v).stopOpcode = s.stopOpcode := rfl
@[simp] theorem setFl_stopInfo (s : State) (v : Byte) : (s.setFl v).stopInfo = s.stopInfo := rfl
@[simp] theorem setFl_out (s : State) (v : Byte) : (s.setFl v).out = s.out := rfl
@[simp] theorem setFl_params (s : State) (v : Byte) : (s.setFl v).params = s.params := rfl

/-! ### setPc -/

@[simp] theorem setPc_regs (s : State) (p : Word9) : (s.setPc p).regs = s.regs := rfl
@[simp] theorem setPc_pc (s : State) (p : Word9) : (s.setPc p).pc = p := rfl
@[simp] theorem setPc_fl (s : State) (p : Word9) : (s.setPc p).fl = s.fl := rfl
@[simp] theorem setPc_ir (s : State) (p : Word9) : (s.setPc p).ir = s.ir := rfl
@[simp] theorem setPc_opa (s : State) (p : Word9) : (s.setPc p).opa = s.opa := rfl
@[simp] theorem setPc_opb (s : State) (p : Word9) : (s.setPc p).opb = s.opb := rfl
@[simp] theorem setPc_mem (s : State) (p : Word9) : (s.setPc p).mem = s.mem := rfl
@[simp] theorem setPc_status (s : State) (p : Word9) : (s.setPc p).status = s.status := rfl
@[simp] theorem setPc_stopPc (s : State) (p : Word9) : (s.setPc p).stopPc = s.stopPc := rfl
@[simp] theorem setPc_stopOpcode (s : State) (p : Word9) : (s.setPc p).stopOpcode = s.stopOpcode := rfl
@[simp] theorem setPc_stopInfo (s : State) (p : Word9) : (s.setPc p).stopInfo = s.stopInfo := rfl
@[simp] theorem setPc_out (s : State) (p : Word9) : (s.setPc p).out = s.out := rfl
@[simp] theorem setPc_params (s : State) (p : Word9) : (s.setPc p).params = s.params := rfl

/-! ### advance -/

@[simp] theorem advance_regs (s : State) (n : Nat) : (s.advance n).regs = s.regs := rfl
@[simp] theorem advance_pc (s : State) (n : Nat) : (s.advance n).pc = s.pc + BitVec.ofNat 9 n := rfl
@[simp] theorem advance_fl (s : State) (n : Nat) : (s.advance n).fl = s.fl := rfl
@[simp] theorem advance_ir (s : State) (n : Nat) : (s.advance n).ir = s.ir := rfl
@[simp] theorem advance_opa (s : State) (n : Nat) : (s.advance n).opa = s.opa := rfl
@[simp] theorem advance_opb (s : State) (n : Nat) : (s.advance n).opb = s.opb := rfl
@[simp] theorem advance_mem (s : State) (n : Nat) : (s.advance n).mem = s.mem := rfl
@[simp] theorem advance_status (s : State) (n : Nat) : (s.advance n).status = s.status := rfl
@[simp] theorem advance_stopPc (s : State) (n : Nat) : (s.advance n).stopPc = s.stopPc := rfl
@[simp] theorem advance_stopOpcode (s : State) (n : Nat) : (s.advance n).stopOpcode = s.stopOpcode := rfl
@[simp] theorem advance_stopInfo (s : State) (n : Nat) : (s.advance n).stopInfo = s.stopInfo := rfl
@[simp] theorem advance_out (s : State) (n : Nat) : (s.advance n).out = s.out := rfl
@[simp] theorem advance_params (s : State) (n : Nat) : (s.advance n).params = s.params := rfl

/-! ### emit -/

@[simp] theorem emit_regs (s : State) (v : Byte) : (s.emit v).regs = s.regs := rfl
@[simp] theorem emit_pc (s : State) (v : Byte) : (s.emit v).pc = s.pc := rfl
@[simp] theorem emit_fl (s : State) (v : Byte) : (s.emit v).fl = s.fl := rfl
@[simp] theorem emit_ir (s : State) (v : Byte) : (s.emit v).ir = s.ir := rfl
@[simp] theorem emit_opa (s : State) (v : Byte) : (s.emit v).opa = s.opa := rfl
@[simp] theorem emit_opb (s : State) (v : Byte) : (s.emit v).opb = s.opb := rfl
@[simp] theorem emit_mem (s : State) (v : Byte) : (s.emit v).mem = s.mem := rfl
@[simp] theorem emit_status (s : State) (v : Byte) : (s.emit v).status = s.status := rfl
@[simp] theorem emit_stopPc (s : State) (v : Byte) : (s.emit v).stopPc = s.stopPc := rfl
@[simp] theorem emit_stopOpcode (s : State) (v : Byte) : (s.emit v).stopOpcode = s.stopOpcode := rfl
@[simp] theorem emit_stopInfo (s : State) (v : Byte) : (s.emit v).stopInfo = s.stopInfo := rfl
@[simp] theorem emit_out (s : State) (v : Byte) : (s.emit v).out = s.out ++ [v] := rfl
@[simp] theorem emit_params (s : State) (v : Byte) : (s.emit v).params = s.params := rfl

/-! ### takeStop -/

@[simp] theorem takeStop_regs (s : State) (c : StopCause) (op : Byte) : (takeStop c op s).regs = s.regs := rfl
@[simp] theorem takeStop_pc (s : State) (c : StopCause) (op : Byte) : (takeStop c op s).pc = s.pc := rfl
@[simp] theorem takeStop_fl (s : State) (c : StopCause) (op : Byte) : (takeStop c op s).fl = s.fl := rfl
@[simp] theorem takeStop_ir (s : State) (c : StopCause) (op : Byte) : (takeStop c op s).ir = s.ir := rfl
@[simp] theorem takeStop_opa (s : State) (c : StopCause) (op : Byte) : (takeStop c op s).opa = s.opa := rfl
@[simp] theorem takeStop_opb (s : State) (c : StopCause) (op : Byte) : (takeStop c op s).opb = s.opb := rfl
@[simp] theorem takeStop_mem (s : State) (c : StopCause) (op : Byte) : (takeStop c op s).mem = s.mem := rfl
@[simp] theorem takeStop_status (s : State) (c : StopCause) (op : Byte) : (takeStop c op s).status = c.status := rfl
@[simp] theorem takeStop_stopPc (s : State) (c : StopCause) (op : Byte) : (takeStop c op s).stopPc = s.pc := rfl
@[simp] theorem takeStop_stopOpcode (s : State) (c : StopCause) (op : Byte) : (takeStop c op s).stopOpcode = op := rfl
@[simp] theorem takeStop_stopInfo (s : State) (c : StopCause) (op : Byte) : (takeStop c op s).stopInfo = c.info := rfl
@[simp] theorem takeStop_out (s : State) (c : StopCause) (op : Byte) : (takeStop c op s).out = s.out := rfl
@[simp] theorem takeStop_params (s : State) (c : StopCause) (op : Byte) : (takeStop c op s).params = s.params := rfl

/-! ### resetAction -/

@[simp] theorem resetAction_regs (s : State) : (resetAction s).regs = resetRegs s.params := rfl
@[simp] theorem resetAction_pc (s : State) : (resetAction s).pc = Config.pcReset := rfl
@[simp] theorem resetAction_fl (s : State) : (resetAction s).fl = Config.flReset := rfl
@[simp] theorem resetAction_ir (s : State) : (resetAction s).ir = s.params.irReset := rfl
@[simp] theorem resetAction_opa (s : State) : (resetAction s).opa = s.params.opaReset := rfl
@[simp] theorem resetAction_opb (s : State) : (resetAction s).opb = s.params.opbReset := rfl
@[simp] theorem resetAction_mem (s : State) : (resetAction s).mem = s.mem := rfl
@[simp] theorem resetAction_status (s : State) : (resetAction s).status = .ready := rfl
@[simp] theorem resetAction_stopPc (s : State) : (resetAction s).stopPc = 0#9 := rfl
@[simp] theorem resetAction_stopOpcode (s : State) : (resetAction s).stopOpcode = 0#8 := rfl
@[simp] theorem resetAction_stopInfo (s : State) : (resetAction s).stopInfo = 0#9 := rfl
@[simp] theorem resetAction_out (s : State) : (resetAction s).out = [] := rfl
@[simp] theorem resetAction_params (s : State) : (resetAction s).params = s.params := rfl

/-! ### The register file -/

@[simp] theorem reg_setReg_same (s : State) (i : RegIndex) (v : Byte) : (s.setReg i v).reg i = v := by
  simp [State.reg, State.setReg]

@[simp] theorem reg_setReg_other (s : State) (i j : RegIndex) (v : Byte) (h : i ≠ j) : (s.setReg i v).reg j = s.reg j := by
  simp [State.reg, State.setReg, Fin.val_ne_of_ne h]

theorem reg_setReg (s : State) (i j : RegIndex) (v : Byte) : (s.setReg i v).reg j = if i = j then v else s.reg j := by
  split
  · next h => subst h; simp
  · next h => exact reg_setReg_other s i j v h

@[simp] theorem reg_setFl (s : State) (v : Byte) (i : RegIndex) : (s.setFl v).reg i = s.reg i := rfl
@[simp] theorem reg_setPc (s : State) (p : Word9) (i : RegIndex) : (s.setPc p).reg i = s.reg i := rfl
@[simp] theorem reg_advance (s : State) (n : Nat) (i : RegIndex) : (s.advance n).reg i = s.reg i := rfl
@[simp] theorem reg_emit (s : State) (v : Byte) (i : RegIndex) : (s.emit v).reg i = s.reg i := rfl
@[simp] theorem reg_takeStop (c : StopCause) (op : Byte) (s : State) (i : RegIndex) : (takeStop c op s).reg i = s.reg i := rfl

@[simp] theorem sp_setReg_sp (s : State) (v : Byte) : (s.setReg Config.spIndex v).sp = v := reg_setReg_same s _ v
@[simp] theorem sp_setReg_other (s : State) (i : RegIndex) (v : Byte) (h : i ≠ Config.spIndex) : (s.setReg i v).sp = s.sp :=
  reg_setReg_other s i _ v h
@[simp] theorem sp_setFl (s : State) (v : Byte) : (s.setFl v).sp = s.sp := rfl
@[simp] theorem sp_setPc (s : State) (p : Word9) : (s.setPc p).sp = s.sp := rfl
@[simp] theorem sp_advance (s : State) (n : Nat) : (s.advance n).sp = s.sp := rfl
@[simp] theorem sp_emit (s : State) (v : Byte) : (s.emit v).sp = s.sp := rfl
@[simp] theorem sp_takeStop (c : StopCause) (op : Byte) (s : State) : (takeStop c op s).sp = s.sp := rfl

/-- Two states with the same fields are the same state. -/
theorem State.ext_fields {s t : State} (h1 : s.regs = t.regs) (h2 : s.pc = t.pc) (h3 : s.fl = t.fl) (h4 : s.ir = t.ir)
    (h5 : s.opa = t.opa) (h6 : s.opb = t.opb) (h7 : s.mem = t.mem) (h8 : s.status = t.status) (h9 : s.stopPc = t.stopPc)
    (h10 : s.stopOpcode = t.stopOpcode) (h11 : s.stopInfo = t.stopInfo) (h12 : s.out = t.out)
    (h13 : s.params = t.params) : s = t := by
  cases s; cases t; simp_all

/-- `State.reset` is what the reset action leaves in any state with empty memory and the default arguments. -/
theorem resetAction_eq_reset (s : State) (hm : s.mem = []) (hp : s.params = Params.default) :
    resetAction s = State.reset := by
  simp [resetAction, State.reset, hm, hp]

end Sys2Proof.Machine
end

