-- ==== Sys2Proof/Laws/Ops.lean ====
section
/-! SUPPORT. One lemma per shared operation that says everything it can do. -/

namespace Sys2Proof.Machine

/-! ### Chaining -/

@[simp] theorem except_bind_ok {ε α β : Type} (a : α) (f : α → Except ε β) : (Except.ok a >>= f) = f a := rfl
@[simp] theorem except_bind_error {ε α β : Type} (e : ε) (f : α → Except ε β) :
    ((Except.error e : Except ε α) >>= f) = .error e := rfl
@[simp] theorem except_pure {ε α : Type} (a : α) : (pure a : Except ε α) = .ok a := rfl

/-- A chained computation that succeeds has a first part that succeeds. -/
theorem except_bind_eq_ok {ε α β : Type} {x : Except ε α} {f : α → Except ε β} {r : β} (h : (x >>= f) = .ok r) :
    ∃ a, x = .ok a ∧ f a = .ok r := by
  cases x with
  | ok a => exact ⟨a, rfl, h⟩
  | error e => cases h

/-- A chained computation that fails fails in its first part or in what follows it. -/
theorem except_bind_eq_error {ε α β : Type} {x : Except ε α} {f : α → Except ε β} {e : ε} (h : (x >>= f) = .error e) :
    x = .error e ∨ ∃ a, x = .ok a ∧ f a = .error e := by
  cases x with
  | ok a => exact .inr ⟨a, rfl, h⟩
  | error e' => cases h; exact .inl rfl

@[simp] theorem complete_ok (s t : State) : complete s (.ok t) = .next t := rfl
@[simp] theorem complete_error (s : State) (c : StopCause) : complete s (.error c) = .next (takeStop c s.ir s) := rfl

/-- An instruction always answers a next state: what its effects built, or the stop it took. -/
theorem complete_cases {s t : State} {r : Except StopCause State} (h : complete s r = .next t) :
    r = .ok t ∨ ∃ c, r = .error c ∧ t = takeStop c s.ir s := by
  cases r with
  | ok u => cases h; exact .inl rfl
  | error c => cases h; exact .inr ⟨c, rfl, rfl⟩

theorem complete_answers_next (s : State) (r : Except StopCause State) : ∃ t, complete s r = .next t := by
  cases r <;> exact ⟨_, rfl⟩

/-! ### Operands -/

theorem regOperand_legal {byte : Byte} (h : byte.toNat < 8) : regOperand byte = .ok ⟨byte.toNat, h⟩ := by
  simp [regOperand, h]

theorem regOperand_illegal {byte : Byte} (h : 8 ≤ byte.toNat) : regOperand byte = .error (.registerIndexFault byte) := by
  simp [regOperand, Nat.not_lt.mpr h]

theorem regOperand_cases (byte : Byte) :
    (∃ h : byte.toNat < 8, regOperand byte = .ok ⟨byte.toNat, h⟩) ∨
      (8 ≤ byte.toNat ∧ regOperand byte = .error (.registerIndexFault byte)) := by
  by_cases h : byte.toNat < 8
  · exact .inl ⟨h, regOperand_legal h⟩
  · exact .inr ⟨by omega, regOperand_illegal (by omega)⟩

theorem regOperand_eq_error {byte : Byte} {c : StopCause} (h : regOperand byte = .error c) :
    8 ≤ byte.toNat ∧ c = .registerIndexFault byte := by
  obtain ⟨h8, hr⟩ | ⟨h8, hr⟩ := regOperand_cases byte
  · rw [hr] at h; cases h
  · rw [hr] at h; cases h; exact ⟨h8, rfl⟩

/-! ### Memory access -/

theorem memRead_inside {addr : Nat} (s : State) (h : addr < 256) : memRead addr s = .ok (s.mem.read addr) := by
  simp [memRead, h]

theorem memRead_outside {addr : Nat} (s : State) (h : 256 ≤ addr) : memRead addr s = .error (.addressFault addr) := by
  simp [memRead, Nat.not_lt.mpr h]

theorem memWrite_inside {addr : Nat} (v : Byte) (s : State) (h : addr < 256) :
    memWrite addr v s = .ok { s with mem := s.mem.write addr v } := by
  simp [memWrite, h]

/-! ### Stack -/

/-- A push from SP > 0 decrements SP and writes the cell below the old SP; nothing else changes. -/
theorem pushByte_room {s : State} (v : Byte) (h : s.sp ≠ 0#8) :
    pushByte v s =
      .ok { s with regs := s.regs.set 7 (s.sp - 1#8), mem := s.mem.write (pushAddress s) v } := by
  have ha : pushAddress s < 256 := by have := s.sp.isLt; unfold pushAddress; omega
  rw [pushByte, if_neg h, memWrite_inside v _ ha]
  rfl

theorem pushByte_full {s : State} (v : Byte) (h : s.sp = 0#8) : pushByte v s = .error (.stackFault 0#8) := by
  rw [pushByte, if_pos h, h]

/-- A pop from SP < 255 gives the byte at SP and increments SP; nothing else changes. -/
theorem popByte_room {s : State} (h : s.sp ≠ 255#8) :
    popByte s = .ok (s.mem.read (popAddress s), s.setReg 7 (s.sp + 1#8)) := by
  rw [popByte, if_neg h, memRead_inside s (by have := s.sp.isLt; unfold popAddress; omega)]
  rfl

theorem popByte_end {s : State} (h : s.sp = 255#8) : popByte s = .error (.stackFault 255#8) := by
  rw [popByte, if_pos h, h]

theorem pushByte_cases (v : Byte) (s : State) :
    (s.sp ≠ 0#8 ∧ pushByte v s =
      .ok { s with regs := s.regs.set 7 (s.sp - 1#8), mem := s.mem.write (pushAddress s) v }) ∨
      (s.sp = 0#8 ∧ pushByte v s = .error (.stackFault 0#8)) := by
  by_cases h : s.sp = 0#8
  · exact .inr ⟨h, pushByte_full v h⟩
  · exact .inl ⟨h, pushByte_room v h⟩

theorem popByte_cases (s : State) :
    (s.sp ≠ 255#8 ∧ popByte s = .ok (s.mem.read (popAddress s), s.setReg 7 (s.sp + 1#8))) ∨
      (s.sp = 255#8 ∧ popByte s = .error (.stackFault 255#8)) := by
  by_cases h : s.sp = 255#8
  · exact .inr ⟨h, popByte_end h⟩
  · exact .inl ⟨h, popByte_room h⟩

/-! ### ALU -/

@[simp] theorem alu_add (b : Bool) (u v : Byte) :
    alu b aluAdd u v = .ok (.result (BitVec.ofNat 8 ((u.toNat + v.toNat) % 256))) := rfl
@[simp] theorem alu_mul (b : Bool) (u v : Byte) :
    alu b aluMul u v = .ok (.result (BitVec.ofNat 8 ((u.toNat * v.toNat) % 256))) := rfl
@[simp] theorem alu_cmp (b : Bool) (u v : Byte) : alu b aluCmp u v = .ok (.flags (cmpFlags b u v)) := rfl

/-- The three operations of R110 never fail. -/
theorem alu_supported {sel : BitVec 2} (h : sel = aluAdd ∨ sel = aluMul ∨ sel = aluCmp) (b : Bool) (u v : Byte) :
    ∃ out, alu b sel u v = .ok out := by
  obtain rfl | rfl | rfl := h <;> exact ⟨_, rfl⟩

/-- CMP's flag value is one of three (R115). -/
theorem cmpFlags_cases (b : Bool) (u v : Byte) :
    (u.toNat = v.toNat ∧ cmpFlags b u v = 0b00000100#8) ∨ (v.toNat < u.toNat ∧ cmpFlags b u v = 0b00000010#8) ∨
      (u.toNat < v.toNat ∧ cmpFlags b u v = if b then 0b00000100#8 else 0b00000001#8) := by
  unfold cmpFlags flEqual flGreater flLess
  split
  · next h => exact .inl ⟨h, rfl⟩
  · split
    · next h => exact .inr (.inl ⟨h, rfl⟩)
    · next h1 h2 => exact .inr (.inr ⟨by omega, rfl⟩)

/-- Everything an instruction of format F2R can do, for a select the ALU supports: a stop on field a, a stop on field b, or
the ALU's output written back. -/
theorem aluInstr_cases {sel : BitVec 2} (hsel : sel = aluAdd ∨ sel = aluMul ∨ sel = aluCmp) (a b : Byte) (s : State) :
    (8 ≤ a.toNat ∧ aluInstr sel a b s = .error (.registerIndexFault a)) ∨
      (a.toNat < 8 ∧ 8 ≤ b.toNat ∧ aluInstr sel a b s = .error (.registerIndexFault b)) ∨
      (∃ (ha : a.toNat < 8) (hb : b.toNat < 8) (out : AluOut),
        alu s.params.lessSharesEqual sel (s.reg ⟨a.toNat, ha⟩) (s.reg ⟨b.toNat, hb⟩) = .ok out ∧
          aluInstr sel a b s = .ok ((aluWriteBack ⟨a.toNat, ha⟩ out s).advance 3)) := by
  unfold aluInstr
  obtain ⟨ha, hra⟩ | ⟨ha, hra⟩ := regOperand_cases a
  · obtain ⟨hb, hrb⟩ | ⟨hb, hrb⟩ := regOperand_cases b
    · obtain ⟨out, hout⟩ :=
        alu_supported hsel s.params.lessSharesEqual (s.reg ⟨a.toNat, ha⟩) (s.reg ⟨b.toNat, hb⟩)
      exact .inr (.inr ⟨ha, hb, out, hout, by rw [hra, hrb]; simp [hout]⟩)
    · exact .inr (.inl ⟨ha, hb, by rw [hra, hrb]; rfl⟩)
  · exact .inl ⟨ha, by rw [hra]; rfl⟩

/-! ### Jumps -/

/-- Everything a jump can do: a stop on its register field, the jump, or the next instruction. -/
theorem jumpIf_cases (taken : Bool) (a : Byte) (s : State) :
    (8 ≤ a.toNat ∧ jumpIf taken a s = .error (.registerIndexFault a)) ∨
      (∃ h : a.toNat < 8, jumpIf taken a s =
        .ok (if taken then s.setPc (toPc (s.reg ⟨a.toNat, h⟩)) else s.advance 2)) := by
  unfold jumpIf
  obtain ⟨h, hr⟩ | ⟨h, hr⟩ := regOperand_cases a
  · exact .inr ⟨h, by rw [hr]; rfl⟩
  · exact .inl ⟨h, by rw [hr]; rfl⟩

theorem toPc_toNat (v : Byte) : (toPc v).toNat = v.toNat := by
  unfold toPc
  rw [BitVec.toNat_setWidth]
  exact Nat.mod_eq_of_lt (by omega)

end Sys2Proof.Machine
end

