-- ==== Sys2Proof/Laws/Exec.lean ====
section
/-! SUPPORT. Everything one instruction can do, said once: `exec_effect`. -/

namespace Sys2Proof.Machine

/-- The state after a push of `v`, before pc moves. -/
def pushed (s : State) (v : Byte) : State :=
  { s with regs := s.regs.set 7 (s.sp - 1#8), mem := s.mem.write (pushAddress s) v }

/-- The state after a pop, before its byte is used. -/
def popped (s : State) : State := s.setReg 7 (s.sp + 1#8)

/-- The byte a pop reads. -/
def topByte (s : State) : Byte := s.mem.read (popAddress s)

/-- The next states of an instruction: the stops on a register field, then each instruction's own effect and stop. -/
inductive Effect : Instr → State → State → Prop where
  | badA (i : Instr) (s : State) (a : Byte) (hop : i.operands.head? = some a) (h8 : 8 ≤ a.toNat)
      (hk : i.op.control.aKind = .register) : Effect i s (takeStop (.registerIndexFault a) s.ir s)
  | badB (i : Instr) (s : State) (a b : Byte) (hop : i.operands = [a, b]) (ha : a.toNat < 8) (h8 : 8 ≤ b.toNat)
      (hk : i.op.control.bKind = .register) : Effect i s (takeStop (.registerIndexFault b) s.ir s)
  | hlt (s : State) : Effect .hlt s (takeStop .halted s.ir s)
  | ldi (s : State) (a b : Byte) (ha : a.toNat < 8) : Effect (.ldi a b) s ((s.setReg ⟨a.toNat, ha⟩ b).advance 3)
  | prn (s : State) (a : Byte) (ha : a.toNat < 8) : Effect (.prn a) s ((s.emit (s.reg ⟨a.toNat, ha⟩)).advance 2)
  | mul (s : State) (a b : Byte) (ha : a.toNat < 8) (hb : b.toNat < 8) :
      Effect (.mul a b) s ((s.setReg ⟨a.toNat, ha⟩
        (BitVec.ofNat 8 (((s.reg ⟨a.toNat, ha⟩).toNat * (s.reg ⟨b.toNat, hb⟩).toNat) % 256))).advance 3)
  | add (s : State) (a b : Byte) (ha : a.toNat < 8) (hb : b.toNat < 8) :
      Effect (.add a b) s ((s.setReg ⟨a.toNat, ha⟩
        (BitVec.ofNat 8 (((s.reg ⟨a.toNat, ha⟩).toNat + (s.reg ⟨b.toNat, hb⟩).toNat) % 256))).advance 3)
  | cmp (s : State) (a b : Byte) (ha : a.toNat < 8) (hb : b.toNat < 8) :
      Effect (.cmp a b) s ((s.setFl
        (cmpFlags s.params.lessSharesEqual (s.reg ⟨a.toNat, ha⟩) (s.reg ⟨b.toNat, hb⟩))).advance 3)
  | push (s : State) (a : Byte) (ha : a.toNat < 8) (h0 : s.sp ≠ 0#8) :
      Effect (.push a) s ((pushed s (s.reg ⟨a.toNat, ha⟩)).advance 2)
  | pushFull (s : State) (a : Byte) (ha : a.toNat < 8) (h0 : s.sp = 0#8) :
      Effect (.push a) s (takeStop (.stackFault 0#8) s.ir s)
  | pop (s : State) (a : Byte) (ha : a.toNat < 8) (h0 : s.sp ≠ 255#8) :
      Effect (.pop a) s (((popped s).setReg ⟨a.toNat, ha⟩ (topByte s)).advance 2)
  | popEnd (s : State) (a : Byte) (ha : a.toNat < 8) (h0 : s.sp = 255#8) :
      Effect (.pop a) s (takeStop (.stackFault 255#8) s.ir s)
  | ret (s : State) (h0 : s.sp ≠ 255#8) : Effect .ret s ((popped s).setPc (toPc (topByte s)))
  | retEnd (s : State) (h0 : s.sp = 255#8) : Effect .ret s (takeStop (.stackFault 255#8) s.ir s)
  | call (s : State) (a : Byte) (ha : a.toNat < 8) (h0 : s.sp ≠ 0#8) :
      Effect (.call a) s
        ((pushed s (returnAddress s)).setPc (toPc ((pushed s (returnAddress s)).reg ⟨a.toNat, ha⟩)))
  | callFull (s : State) (a : Byte) (ha : a.toNat < 8) (h0 : s.sp = 0#8) :
      Effect (.call a) s (takeStop (.stackFault 0#8) s.ir s)
  | jmp (s : State) (a : Byte) (ha : a.toNat < 8) : Effect (.jmp a) s (s.setPc (toPc (s.reg ⟨a.toNat, ha⟩)))
  | jeqTaken (s : State) (a : Byte) (ha : a.toNat < 8) (he : equalSet s.fl = true) :
      Effect (.jeq a) s (s.setPc (toPc (s.reg ⟨a.toNat, ha⟩)))
  | jeqNotTaken (s : State) (a : Byte) (ha : a.toNat < 8) (he : equalSet s.fl = false) : Effect (.jeq a) s (s.advance 2)
  | jneTaken (s : State) (a : Byte) (ha : a.toNat < 8) (he : equalSet s.fl = false) :
      Effect (.jne a) s (s.setPc (toPc (s.reg ⟨a.toNat, ha⟩)))
  | jneNotTaken (s : State) (a : Byte) (ha : a.toNat < 8) (he : equalSet s.fl = true) : Effect (.jne a) s (s.advance 2)

/-- An instruction that answers a next state has one of the effects above. -/
theorem exec_effect {i : Instr} {s t : State} (h : exec i s = .next t) : Effect i s t := by
  cases i <;>
    simp only [exec, execHlt, execLdi, execPrn, execMul, execAdd, execCmp, execPush, execPop, execRet, execCall, execJmp,
      execJeq, execJne] at h
  case hlt => cases h; exact .hlt s
  case ldi a b =>
    obtain ⟨h8, hr⟩ | ⟨h8, hr⟩ := regOperand_cases a <;> rw [hr] at h <;> cases h
    · exact .ldi ..
    · exact .badA _ s a rfl h8 rfl
  case prn a =>
    obtain ⟨h8, hr⟩ | ⟨h8, hr⟩ := regOperand_cases a <;> rw [hr] at h <;> cases h
    · exact .prn ..
    · exact .badA _ s a rfl h8 rfl
  case add a b =>
    obtain ⟨h8, hr⟩ | ⟨h1, h8, hr⟩ | ⟨ha, hb, out, ho, hr⟩ := aluInstr_cases (.inl rfl) a b s <;>
      rw [hr] at h <;> cases h
    · exact .badA _ s a rfl h8 rfl
    · exact .badB _ s a b rfl h1 h8 rfl
    · cases ho; exact .add ..
  case mul a b =>
    obtain ⟨h8, hr⟩ | ⟨h1, h8, hr⟩ | ⟨ha, hb, out, ho, hr⟩ := aluInstr_cases (.inr (.inl rfl)) a b s <;>
      rw [hr] at h <;> cases h
    · exact .badA _ s a rfl h8 rfl
    · exact .badB _ s a b rfl h1 h8 rfl
    · cases ho; exact .mul ..
  case cmp a b =>
    obtain ⟨h8, hr⟩ | ⟨h1, h8, hr⟩ | ⟨ha, hb, out, ho, hr⟩ := aluInstr_cases (.inr (.inr rfl)) a b s <;>
      rw [hr] at h <;> cases h
    · exact .badA _ s a rfl h8 rfl
    · exact .badB _ s a b rfl h1 h8 rfl
    · cases ho; exact .cmp ..
  case push a =>
    obtain ⟨h8, hr⟩ | ⟨h8, hr⟩ := regOperand_cases a <;> rw [hr] at h
    · simp only [except_bind_ok] at h
      obtain ⟨h0, hp⟩ | ⟨h0, hp⟩ := pushByte_cases (s.reg ⟨a.toNat, h8⟩) s <;> rw [hp] at h <;> cases h
      · exact .push _ _ h8 h0
      · exact .pushFull _ _ h8 h0
    · cases h; exact .badA _ s a rfl h8 rfl
  case pop a =>
    obtain ⟨h8, hr⟩ | ⟨h8, hr⟩ := regOperand_cases a <;> rw [hr] at h
    · simp only [except_bind_ok] at h
      obtain ⟨h0, hp⟩ | ⟨h0, hp⟩ := popByte_cases s <;> rw [hp] at h <;> cases h
      · exact .pop _ _ h8 h0
      · exact .popEnd _ _ h8 h0
    · cases h; exact .badA _ s a rfl h8 rfl
  case call a =>
    obtain ⟨h8, hr⟩ | ⟨h8, hr⟩ := regOperand_cases a <;> rw [hr] at h
    · simp only [except_bind_ok] at h
      obtain ⟨h0, hp⟩ | ⟨h0, hp⟩ := pushByte_cases (returnAddress s) s <;> rw [hp] at h <;> cases h
      · exact .call _ _ h8 h0
      · exact .callFull _ _ h8 h0
    · cases h; exact .badA _ s a rfl h8 rfl
  case ret =>
    obtain ⟨h0, hp⟩ | ⟨h0, hp⟩ := popByte_cases s <;> rw [hp] at h <;> cases h
    · exact .ret _ h0
    · exact .retEnd _ h0
  case jmp a =>
    obtain ⟨h8, hr⟩ | ⟨h8, hr⟩ := jumpIf_cases true a s <;> rw [hr] at h <;> cases h
    · exact .badA _ s a rfl h8 rfl
    · exact .jmp ..
  case jeq a =>
    obtain ⟨h8, hr⟩ | ⟨h8, hr⟩ := jumpIf_cases (equalSet s.fl) a s <;> rw [hr] at h <;> cases h
    · exact .badA _ s a rfl h8 rfl
    · cases he : equalSet s.fl
      · exact .jeqNotTaken _ _ h8 he
      · exact .jeqTaken _ _ h8 he
  case jne a =>
    obtain ⟨h8, hr⟩ | ⟨h8, hr⟩ := jumpIf_cases (!equalSet s.fl) a s <;> rw [hr] at h <;> cases h
    · exact .badA _ s a rfl h8 rfl
    · cases he : equalSet s.fl
      · exact .jneTaken _ _ h8 he
      · exact .jneNotTaken _ _ h8 he

/-- Every instruction answers a next state, in every state. -/
theorem exec_answers_next (i : Instr) (s : State) : ∃ t, exec i s = .next t := by
  cases i <;> simp only [exec] <;> exact complete_answers_next _ _

end Sys2Proof.Machine
end

