-- ==== Sys2Proof/Laws/PerInstr.lean ====
section
/-! SUPPORT. Statements made per instruction: the shape of every instruction's encoding. -/

namespace Sys2Proof.Laws.EncodeShape

/-- The encoding has the length of the control word, and there are at most two operand bytes (R5 `MAX_OPERANDS`, R63, R88). -/
def Statement (i : Instr) : Prop :=
  (encode i).length = i.op.control.length ∧ i.operands.length ≤ 2

theorem hlt : Statement .hlt := ⟨rfl, by simp [Instr.operands]⟩
theorem ldi (a b : Byte) : Statement (.ldi a b) := ⟨rfl, by simp [Instr.operands]⟩
theorem prn (a : Byte) : Statement (.prn a) := ⟨rfl, by simp [Instr.operands]⟩
theorem mul (a b : Byte) : Statement (.mul a b) := ⟨rfl, by simp [Instr.operands]⟩
theorem add (a b : Byte) : Statement (.add a b) := ⟨rfl, by simp [Instr.operands]⟩
theorem push (a : Byte) : Statement (.push a) := ⟨rfl, by simp [Instr.operands]⟩
theorem pop (a : Byte) : Statement (.pop a) := ⟨rfl, by simp [Instr.operands]⟩
theorem ret : Statement .ret := ⟨rfl, by simp [Instr.operands]⟩
theorem call (a : Byte) : Statement (.call a) := ⟨rfl, by simp [Instr.operands]⟩
theorem cmp (a b : Byte) : Statement (.cmp a b) := ⟨rfl, by simp [Instr.operands]⟩
theorem jne (a : Byte) : Statement (.jne a) := ⟨rfl, by simp [Instr.operands]⟩
theorem jeq (a : Byte) : Statement (.jeq a) := ⟨rfl, by simp [Instr.operands]⟩
theorem jmp (a : Byte) : Statement (.jmp a) := ⟨rfl, by simp [Instr.operands]⟩

end Sys2Proof.Laws.EncodeShape
end

