-- ==== Sys2Proof/Laws/Step.lean ====
section
/-! SUPPORT. What one fetch and one step can do, said once. -/

namespace Sys2Proof.Machine

/-- The state with the three bytes at pc in the latches. -/
def latch (s : State) : State :=
  { s with
    ir := s.mem.read s.pc.toNat
    opa := s.mem.read (s.pc.toNat + 1)
    opb := s.mem.read (s.pc.toNat + 2) }

theorem fetch_inside {s : State} (h : s.pc.toNat ≤ 253) : fetch s = .latched (latch s) := by
  rw [fetch, memRead_inside s (by omega), memRead_inside s (by omega), memRead_inside s (by omega)]
  rfl

/-- Past 253 the fetch stops the core with an address fault; only latches, status and stop registers change. -/
theorem fetch_outside {s : State} (h : 254 ≤ s.pc.toNat) :
    ∃ addr op t, fetch s = .stopped (takeStop (.addressFault addr) op t) ∧
      256 ≤ addr ∧ (s.pc.toNat ≤ 256 → addr = 256) ∧
      op = (if s.pc.toNat ≤ 255 then s.mem.read s.pc.toNat else 0#8) ∧
      ∃ ir opa, t = { s with ir := ir, opa := opa } := by
  unfold fetch
  by_cases h0 : s.pc.toNat < 256
  · rw [memRead_inside s h0]
    by_cases h1 : s.pc.toNat + 1 < 256
    · rw [memRead_inside s h1, memRead_outside s (by omega)]
      exact ⟨_, _, _, rfl, by omega, by omega, by simp [show s.pc.toNat ≤ 255 by omega], _, _, rfl⟩
    · rw [memRead_outside s (by omega)]
      exact ⟨_, _, _, rfl, by omega, by omega, by simp [show s.pc.toNat ≤ 255 by omega], _, s.opa, rfl⟩
  · rw [memRead_outside s (by omega)]
    exact ⟨_, _, s, rfl, by omega, by omega, by simp [show ¬ s.pc.toNat ≤ 255 by omega], s.ir, s.opa, rfl⟩

theorem step_stuck {s : State} (h : s.status ≠ .running) : step s = .fault (stuckReason s.status) := by
  simp [step, h]

theorem step_inside {s : State} (hr : s.status = .running) (h : s.pc.toNat ≤ 253) :
    step s =
      match decode (latch s).ir (latch s).opa (latch s).opb with
      | .ok i => exec i (latch s)
      | .error _ => .next (stopBadOpcode (latch s)) := by
  refine (if_pos hr).trans ?_
  generalize hf : fetch s = r
  cases (fetch_inside h).symm.trans hf
  rfl

/-- Everything a step that answers a next state can have done. -/
theorem step_cases {s t : State} (h : step s = .next t) :
    s.status = .running ∧
      ((254 ≤ s.pc.toNat ∧ fetch s = .stopped t) ∨
        (s.pc.toNat ≤ 253 ∧ (∃ i, decode (latch s).ir (latch s).opa (latch s).opb = .ok i ∧ exec i (latch s) = .next t)) ∨
        (s.pc.toNat ≤ 253 ∧ (∃ r, decode (latch s).ir (latch s).opa (latch s).opb = .error r) ∧
          t = stopBadOpcode (latch s))) := by
  by_cases hr : s.status = .running
  · refine ⟨hr, ?_⟩
    by_cases hp : s.pc.toNat ≤ 253
    · rw [step_inside hr hp] at h
      right
      split at h
      · next i hi => exact .inl ⟨hp, i, hi, h⟩
      · next r hd => cases h; exact .inr ⟨hp, ⟨r, hd⟩, rfl⟩
    · left
      obtain ⟨_, _, _, hf, -⟩ := fetch_outside (s := s) (by omega)
      simp only [step, hr, if_true, hf] at h
      cases h
      exact ⟨by omega, hf⟩
  · rw [step_stuck hr] at h
    cases h

end Sys2Proof.Machine
end

