-- ==== Sys2Proof/Machine/Assembler.lean ====
section
/-! DEFINITION. The notation of instructions: spelling and assembly (30_encoding.md rule R76) and disassembly (R79). No part of
the core: a program reaches it as bytes (R78). -/

namespace Sys2Proof.Machine

/-! ### Disassembly -/

/-- One line of a disassembly (R79). -/
inductive DisasmItem where
  /-- A recognised opcode with its operands; `legal` is false when a register field is 8 or more. -/
  | instr (i : Instr) (legal : Bool)
  /-- A byte printed as data. -/
  | data (byte : Byte)
deriving DecidableEq, Repr

/-- Disassembly of a byte list: go on after each instruction by its length, after an unrecognised byte by 1 (R79). R79
leaves open a recognised opcode whose operand bytes lie past the end of the list: it is printed as data, and the
disassembly goes on by 1 (DESIGN CHOICE, notes/assumptions/15.md). `skip` is how many bytes of the instruction printed
last are still ahead. -/
def disassembleFrom : Nat → List Byte → List DisasmItem
  | _, [] => []
  | skip + 1, _ :: rest => disassembleFrom skip rest
  | 0, byte :: rest =>
    match decodeBytes (byte :: rest) with
    | .ok (i, _) => .instr i i.wf :: disassembleFrom (i.op.control.length - 1) rest
    | .error _ => .data byte :: disassembleFrom 0 rest

/-- R79, from the first byte of the list. -/
def disassemble (bytes : List Byte) : List DisasmItem := disassembleFrom 0 bytes

/-- A register field as R79 prints it: `R<n>`, or the raw byte, marked, when it is 8 or more (the mark's spelling is the
model's: DESIGN CHOICE, notes/assumptions/14.md). -/
def regText (byte : Byte) : String :=
  if byte.toNat < 8 then "R" ++ toString byte.toNat else toString byte.toNat ++ " (illegal register)"

/-- The assembler spelling of an instruction (R76); immediates in decimal. -/
def asmText : Instr → String
  | .hlt => "HLT"
  | .ldi a b => "LDI " ++ regText a ++ ", " ++ toString b.toNat
  | .prn a => "PRN " ++ regText a
  | .mul a b => "MUL " ++ regText a ++ ", " ++ regText b
  | .add a b => "ADD " ++ regText a ++ ", " ++ regText b
  | .push a => "PUSH " ++ regText a
  | .pop a => "POP " ++ regText a
  | .ret => "RET"
  | .call a => "CALL " ++ regText a
  | .cmp a b => "CMP " ++ regText a ++ ", " ++ regText b
  | .jne a => "JNE " ++ regText a
  | .jeq a => "JEQ " ++ regText a
  | .jmp a => "JMP " ++ regText a

/-! ### Assembly -/

/-- A line of an assembly program (R76), already read from its text. -/
inductive AsmLine where
  /-- An instruction with its operands as numbers. -/
  | instr (i : Instr)
  /-- `name:`. -/
  | label (name : String)
  /-- `LDI Ra, name`. -/
  | ldiLabel (a : Byte) (name : String)
deriving DecidableEq, Repr

/-- How many bytes a line gives. -/
def AsmLine.size : AsmLine → Nat
  | .instr i => i.op.control.length
  | .label _ => 0
  | .ldiLabel _ _ => Op.ldi.control.length

/-- A label stands for the address of the next byte (R76); the first line that defines it counts
(notes/assumptions/14.md). -/
def labelAddress (name : String) : Nat → List AsmLine → Option Nat
  | _, [] => none
  | addr, .label n :: rest => if n = name then some addr else labelAddress name addr rest
  | addr, line :: rest => labelAddress name (addr + line.size) rest

/-- The bytes of a line, `none` where R76 cannot write it: a register field of 8 or more, an unknown label, or a label past
address 255. -/
def AsmLine.bytes (program : List AsmLine) : AsmLine → Option (List Byte)
  | .instr i => if i.wf then some (encode i) else none
  | .label _ => some []
  | .ldiLabel a name =>
    match labelAddress name 0 program with
    | some addr => if legalReg a && decide (addr < 256) then some (encode (.ldi a (BitVec.ofNat 8 addr))) else none
    | none => none

/-- The bytes of the lines, one after another. -/
def assembleLines (program : List AsmLine) : List AsmLine → Option (List Byte)
  | [] => some []
  | line :: rest =>
    match line.bytes program, assembleLines program rest with
    | some bytes, some more => some (bytes ++ more)
    | _, _ => none

/-- The image of a program that is loaded from address 0 (R76, R78). -/
def assemble (program : List AsmLine) : Option (List Byte) := assembleLines program program

end Sys2Proof.Machine
end

