-- ==== Sys2Proof/Tests/Slice0.lean ====
section
/-! SUPPORT. The model's own tests and the witnesses of its statements. Expected results are those of 95_test_vectors.md
(V-.., W..: derived there from the rules, not from a run), of the examples in the instruction rules, or hand calculation
from them; the comment names which. -/

namespace Sys2Proof.Tests

open Sys2Proof.Machine Sys2Proof.Statements

/-! ### Helpers -/

/-- Bytes written at an address and the ones after it. -/
def poke (m : Memory) (addr : Nat) : List Byte → Memory
  | [] => m
  | byte :: rest => poke (m.write addr byte) (addr + 1) rest

/-- A running core with these bytes at pc = `p`. -/
def at' (p : Word9) (bytes : List Byte) : State :=
  { State.reset with status := .running, pc := p, mem := poke [] p.toNat bytes }

/-- A property of the state after one step. -/
def after (s : State) (p : State → Bool) : Bool :=
  match step s with
  | .next t => p t
  | _ => false

/-! ### WellFormed refuses each ill-formed field (R66, R69) -/

theorem test_wf_ldi_a : Instr.wf (.ldi 8 0) = false := by decide
theorem test_wf_ldi_immediate : Instr.wf (.ldi 7 255) = true := by decide
theorem test_wf_prn : Instr.wf (.prn 8) = false := by decide
theorem test_wf_mul_a : Instr.wf (.mul 8 0) = false := by decide
theorem test_wf_mul_b : Instr.wf (.mul 0 8) = false := by decide
theorem test_wf_add_a : Instr.wf (.add 8 0) = false := by decide
theorem test_wf_add_b : Instr.wf (.add 0 8) = false := by decide
theorem test_wf_cmp_a : Instr.wf (.cmp 255 0) = false := by decide
theorem test_wf_cmp_b : Instr.wf (.cmp 0 255) = false := by decide
theorem test_wf_push : Instr.wf (.push 8) = false := by decide
theorem test_wf_pop : Instr.wf (.pop 8) = false := by decide
theorem test_wf_call : Instr.wf (.call 8) = false := by decide
theorem test_wf_jne : Instr.wf (.jne 8) = false := by decide
theorem test_wf_jeq : Instr.wf (.jeq 8) = false := by decide
theorem test_wf_jmp : Instr.wf (.jmp 8) = false := by decide

/-! ### Decoding: each constructor's word, bit by bit from R65 and R70 -/

theorem test_decode_hlt : decode 0b00000001#8 0xFF#8 0xFF#8 = .ok .hlt := by decide
theorem test_decode_ldi : decode 0b10000010#8 0b00000101#8 0b11001000#8 = .ok (.ldi 5 200) := by decide
theorem test_decode_prn : decode 0b01000111#8 0b00000101#8 0x01#8 = .ok (.prn 5) := by decide
theorem test_decode_mul : decode 0b10100010#8 0b00000010#8 0b00000011#8 = .ok (.mul 2 3) := by decide
theorem test_decode_add : decode 0b10100000#8 0b00000000#8 0b00000001#8 = .ok (.add 0 1) := by decide
theorem test_decode_push : decode 0b01000101#8 0b00000001#8 0x82#8 = .ok (.push 1) := by decide
theorem test_decode_pop : decode 0b01000110#8 0b00000001#8 0x11#8 = .ok (.pop 1) := by decide
theorem test_decode_ret : decode 0b00010001#8 0b11001000#8 0b11001000#8 = .ok .ret := by decide
theorem test_decode_call : decode 0b01010000#8 0b00000010#8 0x47#8 = .ok (.call 2) := by decide
theorem test_decode_cmp : decode 0b10100111#8 0b00000100#8 0b00000110#8 = .ok (.cmp 4 6) := by decide
theorem test_decode_jne : decode 0b01010110#8 0b00000011#8 0x01#8 = .ok (.jne 3) := by decide
theorem test_decode_jeq : decode 0b01010101#8 0b00000011#8 0x47#8 = .ok (.jeq 3) := by decide
theorem test_decode_jmp : decode 0b01010100#8 0b00000000#8 0x00#8 = .ok (.jmp 0) := by decide
/-- V-F7, V-F9: no decoding by fields. -/
theorem test_decode_lookalikes :
    decode 0xA1#8 0 1 = .error (.unrecognisedOpcode 0xA1#8) ∧ decode 0x12#8 0 0 = .error (.unrecognisedOpcode 0x12#8) := by
  decide
/-- No opcode byte has two rows. -/
theorem test_opcodes_distinct : opcodeMap.Pairwise (fun r q => r.1 ≠ q.1 ∧ r.2 ≠ q.2) := by decide
/-- The table's numbering: the second byte is bits 15..8. -/
theorem test_table_word : decodeTableWord 24 0x080082 = some (.ldi 0 8) := by decide
/-- A table word with fewer bits than the instruction: the operand bytes are zero. -/
theorem test_table_word_short : decodeTableWord 8 0xFFFFA0 = some (.add 0 0) := by decide
/-- R79, on the start of program P2 with a data byte in front; the last byte, an opcode without its operands, is printed as
the model chooses (notes/assumptions/15.md). -/
theorem test_disassemble :
    disassemble [0x00, 0x82, 0x00, 0x03, 0x47, 0x09, 0xA0] =
      [.data 0x00, .instr (.ldi 0 3) true, .instr (.prn 9) false, .data 0xA0] := by decide
/-- R76's example. -/
theorem test_text : asmText (.ldi 0 8) = "LDI R0, 8" := by decide
theorem test_text_illegal : asmText (.jmp 8) = "JMP 8 (illegal register)" := by decide

/-- P2 of 95_test_vectors.md, with its loop label, assembles to the image the spec gives. -/
theorem test_assemble_P2 :
    assemble [.instr (.ldi 0 3), .instr (.ldi 1 255), .instr (.ldi 2 0), .ldiLabel 3 "loop", .label "loop", .instr (.prn 0),
      .instr (.add 0 1), .instr (.cmp 0 2), .instr (.jne 3), .instr .hlt] =
    some [0x82, 0x00, 0x03, 0x82, 0x01, 0xFF, 0x82, 0x02, 0x00, 0x82, 0x03, 0x0C, 0x47, 0x00, 0xA0, 0x00, 0x01, 0xA7, 0x00,
      0x02, 0x56, 0x03, 0x01] := by decide

/-! ### One step of each instruction -/

/-- V-F2: HLT at 253, the last address an instruction can stand at. -/
theorem test_hlt_253 :
    after (at' 253 [0x01]) (fun t => t.status = .halted ∧ t.stopPc = 253 ∧ t.stopOpcode = 1 ∧ t.stopInfo = 0 ∧ t.pc = 253)
      = true := by decide
/-- V-F3: HLT at 254 is an address fault. -/
theorem test_hlt_254 :
    after (at' 254 [0x01]) (fun t => t.status = .addressFault ∧ t.stopPc = 254 ∧ t.stopOpcode = 1 ∧ t.stopInfo = 256)
      = true := by decide
/-- V-F5: at 256 the opcode is not fetched. -/
theorem test_fetch_256 :
    after (at' 256 []) (fun t => t.status = .addressFault ∧ t.stopPc = 256 ∧ t.stopOpcode = 0 ∧ t.stopInfo = 256)
      = true := by decide
/-- V-F6. -/
theorem test_bad_opcode :
    after (at' 10 [0x00]) (fun t => t.status = .badOpcode ∧ t.stopPc = 10 ∧ t.stopOpcode = 0 ∧ t.pc = 10) = true := by
  decide
/-- V-D5: LDI at 253 leaves pc = 256. -/
theorem test_ldi_253 : after (at' 253 [0x82, 0x00, 0x07]) (fun t => t.reg 0 = 7 ∧ t.pc = 256) = true := by decide
/-- V-D4: LDI R7 moves SP. -/
theorem test_ldi_sp : after (at' 0 [0x82, 0x07, 0x64]) (fun t => t.sp = 100 ∧ t.pc = 3) = true := by decide
/-- V-D6. -/
theorem test_prn : after ((at' 9 [0x47, 0x00]).setReg 0 17) (fun t => t.out = [17] ∧ t.pc = 11) = true := by decide
/-- V-R9, with output already there: the new value comes last. -/
theorem test_prn_appends : after ((at' 0 [0x47, 0x07]).emit 5) (fun t => t.out = [5, 244]) = true := by decide
/-- V-A2. -/
theorem test_add_wraps :
    after (((at' 0 [0xA0, 0x00, 0x01]).setReg 0 200).setReg 1 100) (fun t => t.reg 0 = 44 ∧ t.reg 1 = 100 ∧ t.pc = 3)
      = true := by decide
/-- V-A5: source and destination are one register. -/
theorem test_add_same : after ((at' 0 [0xA0, 0x02, 0x02]).setReg 2 130) (fun t => t.reg 2 = 4) = true := by decide
/-- V-A10. -/
theorem test_mul_low_byte :
    after (((at' 0 [0xA2, 0x00, 0x01]).setReg 0 255).setReg 1 255) (fun t => t.reg 0 = 1 ∧ t.fl = 0) = true := by decide
/-- V-A8. -/
theorem test_mul : after (((at' 0 [0xA2, 0x00, 0x01]).setReg 0 12).setReg 1 11) (fun t => t.reg 0 = 132) = true := by
  decide
/-- V-A18: the comparison is unsigned, and FL is replaced. -/
theorem test_cmp_unsigned :
    after ((((at' 0 [0xA7, 0x00, 0x01]).setReg 0 128).setReg 1 127).setFl 4) (fun t => t.fl = 2 ∧ t.pc = 3) = true := by
  decide
/-- V-A17, both settings of FL_LESS_SHARES_EQUAL. -/
theorem test_cmp_less :
    let s := ((at' 0 [0xA7, 0x00, 0x01]).setReg 0 3).setReg 1 7
    after s (fun t => t.fl = 1) = true ∧
      after { s with params := { s.params with lessSharesEqual := true } } (fun t => t.fl = 4) = true := by decide
/-- V-S3: PUSH R7 pushes the old SP. -/
theorem test_push_sp :
    after (at' 0 [0x45, 0x07]) (fun t => t.mem.read 243 = 244 ∧ t.sp = 243 ∧ t.pc = 2) = true := by decide
/-- V-S5. -/
theorem test_push_full :
    after ((at' 8 [0x45, 0x00]).setReg 7 0)
      (fun t => t.status = .stackFault ∧ t.stopInfo = 0 ∧ t.sp = 0 ∧ t.pc = 8 ∧ t.mem = [(8, 0x45)]) = true := by decide
/-- V-S4: POP R7 leaves the popped value. -/
theorem test_pop_sp :
    after { ((at' 0 [0x46, 0x07]).setReg 7 243) with mem := poke (at' 0 [0x46, 0x07]).mem 243 [100] }
      (fun t => t.sp = 100) = true := by decide
/-- V-S7. -/
theorem test_pop_end :
    after ((at' 0 [0x46, 0x00]).setReg 7 255) (fun t => t.status = .stackFault ∧ t.stopInfo = 255 ∧ t.sp = 255) = true := by
  decide
/-- V-J1. -/
theorem test_call :
    after ((at' 10 [0x50, 0x01]).setReg 1 20) (fun t => t.mem.read 243 = 12 ∧ t.sp = 243 ∧ t.pc = 20) = true := by decide
/-- V-J2: CALL R7 goes to the new SP. -/
theorem test_call_sp : after (at' 10 [0x50, 0x07]) (fun t => t.mem.read 243 = 12 ∧ t.pc = 243) = true := by decide
/-- V-J5. -/
theorem test_ret :
    after { ((at' 20 [0x11]).setReg 7 243) with mem := poke (at' 20 [0x11]).mem 243 [12] }
      (fun t => t.pc = 12 ∧ t.sp = 244) = true := by decide
/-- V-J6. -/
theorem test_ret_end :
    after ((at' 20 [0x11]).setReg 7 255) (fun t => t.status = .stackFault ∧ t.stopInfo = 255 ∧ t.pc = 20) = true := by
  decide
/-- V-J4: a target of 254 is taken. -/
theorem test_jmp : after ((at' 30 [0x54, 0x02]).setReg 2 254) (fun t => t.pc = 254 ∧ t.status = .running) = true := by
  decide
/-- V-J18. -/
theorem test_jmp_illegal :
    after (at' 0 [0x54, 0x08]) (fun t => t.status = .registerIndexFault ∧ t.stopInfo = 8 ∧ t.pc = 0) = true := by decide
/-- V-J10. -/
theorem test_jeq_taken : after (((at' 12 [0x55, 0x03]).setReg 3 40).setFl 4) (fun t => t.pc = 40) = true := by decide
/-- V-J12. -/
theorem test_jeq_not_taken : after (((at' 12 [0x55, 0x03]).setReg 3 40).setFl 2) (fun t => t.pc = 14) = true := by decide
/-- V-J16. -/
theorem test_jne_taken : after (((at' 12 [0x56, 0x03]).setReg 3 40).setFl 1) (fun t => t.pc = 40) = true := by decide
/-- V-R6: the register field is checked though the jump would not be taken. -/
theorem test_jne_checked :
    after ((at' 12 [0x56, 0xFF]).setFl 4) (fun t => t.status = .registerIndexFault ∧ t.stopInfo = 255) = true := by decide
/-- V-R4: field a is checked first. -/
theorem test_check_order : after (at' 0 [0xA0, 0x08, 0x09]) (fun t => t.stopInfo = 8) = true := by decide
/-- V-R7: the register check comes before the stack check. -/
theorem test_check_before_stack :
    after ((at' 0 [0x45, 0x09]).setReg 7 0) (fun t => t.status = .registerIndexFault ∧ t.stopInfo = 9) = true := by decide

/-! ### Reset and ports -/

/-- V-F13, V-F12, V-X2. -/
theorem test_ports :
    (hostAct .start State.reset).1.status = .running ∧
      hostAct .start { State.reset with status := .halted } = ({ State.reset with status := .halted }, .noEffect) ∧
      hostAct (.load 5 0x47) (at' 0 []) = (at' 0 [], .refused) ∧
      ((hostAct (.load 5 0x47) State.reset).1.mem.read 5 = 0x47) := by decide
/-- A placed word runs as the first instruction after reset. -/
theorem test_placed_word :
    after (State.reset.withFetchWord 24 0x080082) (fun t => t.reg 0 = 8 ∧ t.pc = 3) = true := by decide
/-- Boot of the first two instructions of P1, then one step from the launch state. -/
theorem test_boot : after (boot [0x82, 0x00, 0x08, 0x01] State.reset) (fun t => t.reg 0 = 8 ∧ t.pc = 3) = true := by decide

/-! ### Memory: the canonical form -/

theorem test_write_zero_removes : Memory.write [(3, 5#8)] 3 0 = [] := by decide
theorem test_write_keeps_order : Memory.write [(3, 5#8), (9, 1#8)] 4 7 = [(3, 5#8), (4, 7#8), (9, 1#8)] := by decide
theorem test_wf_refuses : Memory.wf [(3, 0#8)] = false ∧ Memory.wf [(3, 1#8), (3, 2#8)] = false ∧
    Memory.wf [(256, 1#8)] = false := by decide

/-! ### Witnesses: concrete states and operands that meet the hypotheses of each statement, at the ends of each range -/

/-- A running core with this SP. -/
def withSp (v : Byte) : State := (at' 0 []).setReg 7 v

theorem witness_StepRunsDecodedInstruction :
    let s := at' 253 [0x01]
    s.status = .running ∧ s.pc.toNat ≤ 253 ∧
      decode (s.mem.read s.pc.toNat) (s.mem.read (s.pc.toNat + 1)) (s.mem.read (s.pc.toNat + 2)) = .ok .hlt := by decide
theorem witness_DecoderMatchesWholeOpcode : 0x54#8 ∈ opcodeBytes ∧ 0x57#8 ∉ opcodeBytes := by decide
theorem witness_UnusedBytesDoNotMatter : Op.ret.control.length = 1 ∧ Op.jmp.control.length = 2 := by decide
theorem witness_PlacedWordRunsNext :
    decodeTableWord 16 0x0754 = some (.jmp 7) ∧ (at' 253 []).pc.toNat ≤ 253 ∧ ¬ (at' 254 []).pc.toNat ≤ 253 := by decide
theorem witness_MemoryAccessPrimitives : 255 < 256 ∧ 256 ≤ 256 := by decide
theorem witness_OnlyPushAndCallWriteMemory :
    ∃ t, exec (.push 7) (withSp 1) = .next t ∧ t.mem.read 0 ≠ (withSp 1).mem.read 0 := ⟨_, rfl, by decide⟩
theorem witness_OnlyPushAndCallWriteMemory_call :
    ∃ t, exec (.call 7) (withSp 1) = .next t ∧ t.mem.read 0 ≠ (withSp 1).mem.read 0 := ⟨_, rfl, by decide⟩
theorem witness_WritesReachTheNextFetch :
    ∃ t, step (at' 0 [0x45, 0x07]) = .next t ∧ (at' 0 [0x45, 0x07]).pc.toNat ≤ 253 ∧
      { t with pc := 243#9 }.mem = t.mem ∧ { t with pc := 243#9 }.pc.toNat ≤ 253 :=
  ⟨_, rfl, by decide, rfl, by decide⟩
theorem witness_FetchLoadsOrFaults :
    (at' 253 []).pc.toNat ≤ 253 ∧ (at' 254 []).status = .running ∧ 254 ≤ (at' 254 []).pc.toNat ∧
      254 ≤ (at' 256 []).pc.toNat ∧ (at' 256 []).pc.toNat ≤ 256 := by decide
theorem witness_FetchLoadsOrFaults_exec : ∃ t, (at' 0 []).status = .running ∧ exec .hlt (at' 0 []) = .next t :=
  ⟨_, rfl, rfl⟩
theorem witness_UnrecognisedOpcodeStops :
    (at' 253 []).status = .running ∧ (at' 253 []).mem.read 253 ∉ opcodeBytes ∧ (at' 254 []).mem.read 254 ∉ opcodeBytes ∧
      (at' 255 [0xFF]).mem.read (at' 255 [0xFF]).pc.toNat ∉ opcodeBytes ∧ (at' 255 [0xFF]).pc.toNat = 255 := by decide
theorem witness_StepEnabledExactlyWhileRunning :
    State.reset.status = .ready ∧ (at' 0 []).status = .running ∧ RunStatus.halted ≠ .ready ∧ RunStatus.halted ≠ .running := by
  decide
theorem witness_StepEnabledExactlyWhileRunning_next : ∃ t, step (at' 0 []) = .next t := ⟨_, rfl⟩
theorem witness_RegisterFieldsCheckedFirst :
    Op.ldi.control.aKind = .register ∧ 8 ≤ (8#8).toNat ∧ Op.cmp.control.bKind = .register ∧ (7#8).toNat < 8 ∧
      8 ≤ (255#8).toNat ∧ (Op.ldi.build 7 255).wf = true := by decide
theorem witness_RegisterFieldsCheckedFirst_next : ∃ t, exec (Op.ldi.build 7 255) (at' 0 []) = .next t := ⟨_, rfl⟩
theorem witness_StopsArePrecise_halted :
    ∃ t, (at' 253 [0x01]).pc.toNat ≤ 256 ∧ step (at' 253 [0x01]) = .next t ∧ t.status = .halted ∧ t.status ≠ .running :=
  ⟨_, by decide, rfl, rfl, by decide⟩
theorem witness_StopsArePrecise_badOpcode : ∃ t, step (at' 0 []) = .next t ∧ t.status = .badOpcode := ⟨_, rfl, rfl⟩
theorem witness_StopsArePrecise_address :
    ∃ t, (at' 256 []).pc.toNat ≤ 256 ∧ step (at' 256 []) = .next t ∧ t.status = .addressFault := ⟨_, by decide, rfl, rfl⟩
theorem witness_StopsArePrecise_fieldA :
    ∃ t, step (at' 0 [0xA0, 0x08, 0x08]) = .next t ∧ t.status = .registerIndexFault := ⟨_, rfl, rfl⟩
theorem witness_StopsArePrecise_fieldB :
    ∃ t, step (at' 0 [0xA0, 0x07, 0x08]) = .next t ∧ t.status = .registerIndexFault := ⟨_, rfl, rfl⟩
theorem witness_StopsArePrecise_stack :
    ∃ t, step ((at' 0 [0x11]).setReg 7 255) = .next t ∧ t.status = .stackFault := ⟨_, rfl, rfl⟩
theorem witness_StepStatusFollowsPriority :
    (at' 0 []).status = .running ∧ statusAfterStep (at' 254 [0x01]) = .addressFault ∧
      statusAfterStep (at' 253 [0x00]) = .badOpcode ∧ statusAfterStep ((at' 0 [0x45, 0x08]).setReg 7 0) = .registerIndexFault ∧
      statusAfterStep (at' 0 [0xA7, 0x07, 0x08]) = .registerIndexFault ∧
      statusAfterStep ((at' 0 [0x45, 0x07]).setReg 7 0) = .stackFault ∧
      statusAfterStep ((at' 0 [0x46, 0x07]).setReg 7 255) = .stackFault ∧
      statusAfterStep (at' 253 [0x01]) = .halted ∧ statusAfterStep ((at' 0 [0x45, 0x07]).setReg 7 1) = .running := by decide
theorem witness_OnlyResetLeavesAStop :
    RunStatus.halted.stopped = true ∧ RunStatus.aluFault.stopped = true ∧ RunStatus.running.stopped = false ∧
      HostEvent.load 0 0 ≠ .reset := by decide
theorem witness_JumpToSelfRunsForever :
    let s := (at' 253 [0x54, 0x07]).setReg 7 253
    s.status = .running ∧ s.pc.toNat ≤ 253 ∧ s.mem.read s.pc.toNat = 0x54#8 ∧ s.mem.read (s.pc.toNat + 1) = 7#8 ∧
      (s.reg 7).toNat = s.pc.toNat := by decide
/-- The fetch fault clause that every instruction's statement has. -/
theorem witness_fetchFaultsAtEnd :
    (at' 254 [0x82]).status = .running ∧ 254 ≤ (at' 254 [0x82]).pc.toNat ∧ (at' 255 [0x82]).pc.toNat ≤ 255 ∧
      (at' 254 [0x82]).mem.read 254 = 0x82#8 ∧ (at' 255 [0x82]).mem.read 255 = 0x82#8 := by decide
/-- Register fields at the ends of the legal and the illegal range (LDI, PRN, ADD, MUL, CMP, JMP and the rest). -/
theorem witness_register_fields : (0#8).toNat < 8 ∧ (7#8).toNat < 8 ∧ 8 ≤ (8#8).toNat ∧ 8 ≤ (255#8).toNat := by decide
/-- CmpReplacesFlags and CompareFlagPattern: each relation, at its nearest values. -/
theorem witness_CmpReplacesFlags :
    (255#8).toNat = (255#8).toNat ∧ (128#8).toNat > (127#8).toNat ∧ (0#8).toNat < (1#8).toNat := by decide
theorem witness_PushStoresBelowSp :
    (7#8).toNat < 8 ∧ (withSp 1).sp ≠ 0#8 ∧ (withSp 255).sp ≠ 0#8 ∧ (withSp 0).sp = 0#8 := by decide
theorem witness_PopLoadsFromSp :
    (7#8).toNat < 8 ∧ (withSp 254).sp ≠ 255#8 ∧ (withSp 0).sp ≠ 255#8 ∧ (withSp 255).sp = 255#8 := by decide
theorem witness_CallPushesReturnAddress :
    (7#8).toNat < 8 ∧ ((withSp 1).setPc 253).sp ≠ 0#8 ∧ ((withSp 1).setPc 253).pc.toNat ≤ 253 ∧ (withSp 0).sp = 0#8 := by
  decide
theorem witness_RetPopsIntoPc : (withSp 254).sp ≠ 255#8 ∧ (withSp 255).sp = 255#8 := by decide
theorem witness_JeqJumpsWhenEqual :
    (7#8).toNat < 8 ∧ ((at' 0 []).setFl 4).fl.getLsbD 2 = true ∧ ((at' 0 []).setFl 3).fl.getLsbD 2 = false := by decide
theorem witness_JneJumpsWhenNotEqual :
    (7#8).toNat < 8 ∧ ((at' 0 []).setFl 0).fl.getLsbD 2 = false ∧ ((at' 0 []).setFl 4).fl.getLsbD 2 = true := by decide
theorem witness_AluFaultIsUnreachable : ∃ t, (7#8).toNat < 8 ∧ (at' 0 []).status = .running ∧ exec (.add 7 7) (at' 0 []) = .next t :=
  ⟨_, by decide, rfl, rfl⟩
theorem witness_AluFaultIsUnreachable_step : ∃ t, step (at' 0 [0xA0]) = .next t := ⟨_, rfl⟩
theorem witness_CompareThenConditionalJump :
    ∃ t, (0#8).toNat < 8 ∧ (7#8).toNat < 8 ∧ (3#8).toNat < 8 ∧ exec (.cmp 0 7) (at' 0 []) = .next t ∧
      ((at' 0 []).reg 0).toNat < ((at' 0 []).reg 7).toNat ∧ (at' 0 []).params.lessSharesEqual = false :=
  ⟨_, by decide, by decide, by decide, rfl, by decide, rfl⟩
theorem witness_CompareThenConditionalJump_equal :
    ∃ t, exec (.cmp 7 7) (at' 0 []) = .next t ∧ ((at' 0 []).reg 7).toNat = ((at' 0 []).reg 7).toNat := ⟨_, rfl, rfl⟩
theorem witness_FlagRegisterAccess :
    ∃ t u, (∀ a b, Instr.push 0 ≠ .cmp a b) ∧ (∀ a, Instr.push 0 ≠ .jeq a ∧ Instr.push 0 ≠ .jne a) ∧
      exec (.push 0) (at' 0 []) = .next t ∧ (0b101#8).getLsbD 2 = ((at' 0 []).setFl 4).fl.getLsbD 2 ∧
      exec (.jeq 0) ((at' 0 []).setFl 4) = .next u :=
  ⟨_, _, by simp, by simp, rfl, by decide, rfl⟩
theorem witness_FlagRegisterAccess_jne :
    ∃ u, (3#8).getLsbD 2 = (at' 0 []).fl.getLsbD 2 ∧ exec (.jne 0) (at' 0 []) = .next u := ⟨_, by decide, rfl⟩
/-- HiddenFlagsNeverObservable and the step clause of FlagRegisterAccess. -/
theorem witness_HiddenFlagsNeverObservable : sameButHiddenFlags ((at' 0 []).setFl 1) ((at' 0 []).setFl 2) := by
  constructor <;> decide
theorem witness_PcFollowsSelection :
    ∃ t, (at' 0 []).status = .running ∧ exec (Op.call.build 7 0) (at' 0 []) = .next t ∧ t.status = .running ∧
      (7 : RegIndex).val = (7#8).toNat := ⟨_, rfl, rfl, rfl, by decide⟩
theorem witness_PcFollowsSelection_seq :
    ∃ t, exec (Op.ldi.build 7 0) (at' 253 []) = .next t ∧ t.status = .running ∧ (at' 253 []).pc.toNat ≤ 253 ∧
      Op.ret.control.length = 1 := ⟨_, rfl, rfl, by decide, by decide⟩
theorem witness_PcFollowsSelection_step : ∃ t, step (at' 254 [0x01]) = .next t ∧ t.status ≠ .running :=
  ⟨_, rfl, by decide⟩
theorem witness_PcFollowsSelection_stop :
    ∃ t, exec (Op.call.build 7 0) (withSp 0) = .next t ∧ t.status ≠ .running := ⟨_, rfl, by decide⟩
theorem witness_ControlWordBoundsEffects_regs :
    ∃ t, exec (Op.pop.build 0 0) (withSp 254) = .next t ∧ t.reg 7 ≠ (withSp 254).reg 7 := ⟨_, rfl, by decide⟩
theorem witness_ControlWordBoundsEffects_fl :
    ∃ t, exec (Op.cmp.build 0 0) (at' 0 []) = .next t ∧ t.fl ≠ (at' 0 []).fl := ⟨_, rfl, by decide⟩
theorem witness_ControlWordBoundsEffects_out :
    ∃ t, exec (Op.prn.build 0 0) (at' 0 []) = .next t ∧ t.out ≠ (at' 0 []).out := ⟨_, rfl, by decide⟩
theorem witness_ControlWordBoundsEffects_mem :
    ∃ t, exec (Op.push.build 7 0) (at' 0 []) = .next t ∧ t.mem ≠ (at' 0 []).mem := ⟨_, rfl, by decide⟩
theorem witness_RegisterLoadFrame :
    ∃ t, (Instr.add 7 0).wf = true ∧ exec (.add 7 0) (at' 0 []) = .next t ∧ (0 : RegIndex).val ≠ (7#8).toNat :=
  ⟨_, rfl, rfl, by decide⟩
theorem witness_NoRegisterWriteFrame :
    ∃ t, (Instr.cmp 7 0).wf = true ∧ exec (.cmp 7 0) (at' 0 []) = .next t ∧ Instr.cmp 7 0 ≠ .prn 7 :=
  ⟨_, rfl, rfl, by decide⟩
theorem witness_NoRegisterWriteFrame_prn :
    ∃ t, (Instr.prn 7).wf = true ∧ exec (.prn 7) (at' 0 []) = .next t ∧ Instr.prn 7 ≠ .cmp 7 0 :=
  ⟨_, rfl, rfl, by decide⟩
theorem witness_StackStoreFrame :
    ∃ t, (Instr.call 7).wf = true ∧ exec (.call 7) (withSp 1) = .next t ∧ (withSp 1).sp ≠ 0#8 ∧
      1 ≠ pushAddress (withSp 1) := ⟨_, rfl, rfl, by decide, by decide⟩
theorem witness_StackStoreFrame_full : ∃ t, exec (.push 7) (withSp 0) = .next t ∧ (withSp 0).sp = 0#8 :=
  ⟨_, rfl, by decide⟩
theorem witness_StackLoadFrame :
    ∃ t, (Instr.pop 6).wf = true ∧ exec (.pop 6) (withSp 254) = .next t ∧ (withSp 254).sp ≠ 255#8 ∧
      (0 : RegIndex).val ≠ (6#8).toNat := ⟨_, rfl, rfl, by decide, by decide⟩
theorem witness_StackLoadFrame_end : ∃ t, exec .ret (withSp 255) = .next t ∧ (withSp 255).sp = 255#8 :=
  ⟨_, rfl, by decide⟩
theorem witness_OutputStreamGrowsByPrn :
    ∃ t u v, (∀ a, Instr.hlt ≠ .prn a) ∧ exec .hlt (at' 0 []) = .next t ∧ (7#8).toNat < 8 ∧ 8 ≤ (8#8).toNat ∧
      exec (.prn 8) (at' 0 []) = .next u ∧ core.run 1 (at' 0 [0x47, 0x07]) = .next v :=
  ⟨_, _, _, by simp, rfl, by decide, by decide, rfl, rfl⟩
theorem witness_PushThenPopRoundTrip : (7#8).toNat < 8 ∧ (withSp 1).sp ≠ 0#8 ∧ (withSp 255).sp ≠ 0#8 := by decide
theorem witness_CallThenReturnRoundTrip :
    (7#8).toNat < 8 ∧ (withSp 1).sp ≠ 0#8 ∧ ((withSp 1).setPc 253).pc.toNat ≤ 253 := by decide
theorem witness_StackHoldsSpBytes :
    (7#8).toNat < 8 ∧ 0 ≤ (withSp 0).sp.toNat ∧ 244 ≤ State.reset.sp.toNat ∧ (0#8).toNat ≠ 7 ∧ 243 < 244 := by decide
theorem witness_LoadAndStartPorts :
    State.reset.status ≠ .running ∧ (at' 0 []).status = .running ∧ State.reset.status = .ready ∧
      RunStatus.halted ≠ .ready := by decide
theorem witness_PeekPort : State.reset.status ≠ .running ∧ (at' 0 []).status = .running := by decide
theorem witness_BootGivesLaunchState : (List.replicate 256 (1#8)).length ≤ 256 := Nat.le_of_eq List.length_replicate
theorem witness_invariant_running : Inv (at' 0 [0x01]) := ⟨by decide, by decide, .inl rfl, ⟨rfl, rfl, rfl⟩⟩
theorem witness_StepKeepsInvariant : ∃ t, Inv (at' 0 [0x01]) ∧ step (at' 0 [0x01]) = .next t :=
  ⟨_, witness_invariant_running, rfl⟩
/-- A halted state, with the stop registers HLT leaves. -/
theorem witness_HostEventsKeepInvariant :
    Inv { State.reset with pc := 253, mem := [(253, 1)], status := .halted, stopPc := 253, stopOpcode := 1 } := ⟨by decide, by decide, .inl rfl, ⟨rfl, rfl, rfl⟩⟩
theorem witness_ReachableStatesMeetInvariant : Reachable State.reset := Reachable.reset State.reset (by decide)

end Sys2Proof.Tests
end

/-! PROOFS. What the instructions and the ports do to FL, the output stream and the rest of the state (10_state.md). -/

namespace Sys2Proof.Machine

/-! ### `Effect` is what `exec` does -/

/-- The stop of R90 on field a. -/
theorem exec_of_illegal_a {i : Instr} {s : State} {a : Byte} (hop : i.operands.head? = some a) (h8 : 8 ≤ a.toNat)
    (hk : i.op.control.aKind = .register) : exec i s = .next (takeStop (.registerIndexFault a) s.ir s) := by
  cases i <;> cases hop <;>
    simp [exec, execLdi, execPrn, execMul, execAdd, execPush, execPop, execCall, execCmp, execJne, execJeq, execJmp,
      aluInstr, jumpIf, regOperand_illegal h8]

/-- The stop of R90 on field b, after field a has passed. -/
theorem exec_of_illegal_b {i : Instr} {s : State} {a b : Byte} (hop : i.operands = [a, b]) (ha : a.toNat < 8)
    (h8 : 8 ≤ b.toNat) (hk : i.op.control.bKind = .register) :
    exec i s = .next (takeStop (.registerIndexFault b) s.ir s) := by
  cases i <;> cases hop
  case ldi => cases hk
  all_goals simp [exec, execMul, execAdd, execCmp, aluInstr, regOperand_legal ha, regOperand_illegal h8]

/-- The converse of `exec_effect`. -/
theorem Effect.exec_eq {i : Instr} {s t : State} (h : Effect i s t) : exec i s = .next t := by
  cases h with
  | badA _ _ a hop h8 hk => exact exec_of_illegal_a hop h8 hk
  | badB _ _ a b hop ha h8 hk => exact exec_of_illegal_b hop ha h8 hk
  | hlt _ => rfl
  | ldi _ a b ha => simp [exec, execLdi, regOperand_legal ha, immOperand]
  | prn _ a ha => simp [exec, execPrn, regOperand_legal ha]
  | mul _ a b ha hb => simp [exec, execMul, aluInstr, aluWriteBack, regOperand_legal ha, regOperand_legal hb]
  | add _ a b ha hb => simp [exec, execAdd, aluInstr, aluWriteBack, regOperand_legal ha, regOperand_legal hb]
  | cmp _ a b ha hb => simp [exec, execCmp, aluInstr, aluWriteBack, regOperand_legal ha, regOperand_legal hb]
  | push _ a ha h0 => simp [exec, execPush, regOperand_legal ha, pushByte_room _ h0, pushed]
  | pushFull _ a ha h0 => simp [exec, execPush, regOperand_legal ha, pushByte_full _ h0]
  | pop _ a ha h0 => simp [exec, execPop, regOperand_legal ha, popByte_room h0, popped, topByte]
  | popEnd _ a ha h0 => simp [exec, execPop, regOperand_legal ha, popByte_end h0]
  | ret _ h0 => simp [exec, execRet, popByte_room h0, popped, topByte]
  | retEnd _ h0 => simp [exec, execRet, popByte_end h0]
  | call _ a ha h0 => simp [exec, execCall, regOperand_legal ha, pushByte_room _ h0, pushed]
  | callFull _ a ha h0 => simp [exec, execCall, regOperand_legal ha, pushByte_full _ h0]
  | jmp _ a ha => simp [exec, execJmp, jumpIf, regOperand_legal ha]
  | jeqTaken _ a ha he => simp [exec, execJeq, jumpIf, regOperand_legal ha, he]
  | jeqNotTaken _ a ha he => simp [exec, execJeq, jumpIf, regOperand_legal ha, he]
  | jneTaken _ a ha he => simp [exec, execJne, jumpIf, regOperand_legal ha, he]
  | jneNotTaken _ a ha he => simp [exec, execJne, jumpIf, regOperand_legal ha, he]

/-! ### FL -/

/-- An instruction run with another FL has the same effect and lets that FL through, or is a CMP and replaces it; only for
JEQ and JNE has the new FL to agree with the old one, in the Equal bit. -/
theorem Effect.setFl {i : Instr} {s t : State} (h : Effect i s t) (f : Byte)
    (hE : ∀ a, i = .jeq a ∨ i = .jne a → equalSet f = equalSet s.fl) :
    (t.fl = s.fl ∧ Effect i (s.setFl f) (t.setFl f)) ∨ ((∃ a b, i = .cmp a b) ∧ Effect i (s.setFl f) t) := by
  cases h with
  | cmp _ a b ha hb => exact .inr ⟨⟨a, b, rfl⟩, .cmp (s.setFl f) a b ha hb⟩
  | badA _ _ a hop h8 hk => exact .inl ⟨rfl, .badA i (s.setFl f) a hop h8 hk⟩
  | badB _ _ a b hop ha h8 hk => exact .inl ⟨rfl, .badB i (s.setFl f) a b hop ha h8 hk⟩
  | hlt _ => exact .inl ⟨rfl, .hlt (s.setFl f)⟩
  | ldi _ a b ha => exact .inl ⟨rfl, .ldi (s.setFl f) a b ha⟩
  | prn _ a ha => exact .inl ⟨rfl, .prn (s.setFl f) a ha⟩
  | mul _ a b ha hb => exact .inl ⟨rfl, .mul (s.setFl f) a b ha hb⟩
  | add _ a b ha hb => exact .inl ⟨rfl, .add (s.setFl f) a b ha hb⟩
  | push _ a ha h0 => exact .inl ⟨rfl, .push (s.setFl f) a ha h0⟩
  | pushFull _ a ha h0 => exact .inl ⟨rfl, .pushFull (s.setFl f) a ha h0⟩
  | pop _ a ha h0 => exact .inl ⟨rfl, .pop (s.setFl f) a ha h0⟩
  | popEnd _ a ha h0 => exact .inl ⟨rfl, .popEnd (s.setFl f) a ha h0⟩
  | ret _ h0 => exact .inl ⟨rfl, .ret (s.setFl f) h0⟩
  | retEnd _ h0 => exact .inl ⟨rfl, .retEnd (s.setFl f) h0⟩
  | call _ a ha h0 => exact .inl ⟨rfl, .call (s.setFl f) a ha h0⟩
  | callFull _ a ha h0 => exact .inl ⟨rfl, .callFull (s.setFl f) a ha h0⟩
  | jmp _ a ha => exact .inl ⟨rfl, .jmp (s.setFl f) a ha⟩
  | jeqTaken _ a ha he => exact .inl ⟨rfl, .jeqTaken (s.setFl f) a ha ((hE a (.inl rfl)).trans he)⟩
  | jeqNotTaken _ a ha he => exact .inl ⟨rfl, .jeqNotTaken (s.setFl f) a ha ((hE a (.inl rfl)).trans he)⟩
  | jneTaken _ a ha he => exact .inl ⟨rfl, .jneTaken (s.setFl f) a ha ((hE a (.inr rfl)).trans he)⟩
  | jneNotTaken _ a ha he => exact .inl ⟨rfl, .jneNotTaken (s.setFl f) a ha ((hE a (.inr rfl)).trans he)⟩

theorem exec_keeps_fl {i : Instr} {s t : State} (hcmp : ∀ a b, i ≠ .cmp a b) (h : exec i s = .next t) :
    t.fl = s.fl := by
  obtain ⟨hfl, -⟩ | ⟨⟨a, b, hi⟩, -⟩ := (exec_effect h).setFl s.fl (fun _ _ => rfl)
  · exact hfl
  · exact absurd hi (hcmp a b)

/-- `Effect.setFl` for `exec`, with CMP left out. -/
theorem exec_setFl {i : Instr} {s t : State} {f : Byte} (hcmp : ∀ a b, i ≠ .cmp a b)
    (hE : ∀ a, i = .jeq a ∨ i = .jne a → equalSet f = equalSet s.fl) (h : exec i s = .next t) :
    exec i (s.setFl f) = .next (t.setFl f) := by
  obtain ⟨-, he⟩ | ⟨⟨a, b, hi⟩, -⟩ := (exec_effect h).setFl f hE
  · exact he.exec_eq
  · exact absurd hi (hcmp a b)

theorem exec_cmp_setFl {a b : Byte} (ha : a.toNat < 8) (hb : b.toNat < 8) (s : State) (f : Byte) :
    exec (.cmp a b) (s.setFl f) = exec (.cmp a b) s :=
  (Effect.cmp (s.setFl f) a b ha hb).exec_eq.trans (Effect.cmp s a b ha hb).exec_eq.symm

@[simp] theorem memRead_setFl (addr : Nat) (s : State) (f : Byte) : memRead addr (s.setFl f) = memRead addr s := rfl
@[simp] theorem latch_setFl (s : State) (f : Byte) : latch (s.setFl f) = (latch s).setFl f := rfl

/-- A fetch that fails does so whatever FL is, and lets FL through. -/
theorem fetch_stopped_setFl {s t : State} (f : Byte) (h : fetch s = .stopped t) :
    fetch (s.setFl f) = .stopped (t.setFl f) := by
  simp only [fetch, setFl_pc, memRead_setFl] at h ⊢
  split at h
  · cases h; rfl
  · split at h
    · cases h; rfl
    · split at h
      · cases h; rfl
      · cases h

/-! ### Steps and runs -/

theorem step_of_fetch_stopped {s t : State} (hr : s.status = .running) (h : fetch s = .stopped t) : step s = .next t := by
  simp only [step, hr, if_true, h]

/-- A RUNNING core is never stuck (R28). -/
theorem step_answers_next {s : State} (hr : s.status = .running) : ∃ t, step s = .next t := by
  by_cases hp : s.pc.toNat ≤ 253
  · rw [step_inside hr hp]
    split
    · exact exec_answers_next _ _
    · exact ⟨_, rfl⟩
  · obtain ⟨_, _, _, hf, -⟩ := fetch_outside (s := s) (by omega)
    exact ⟨_, step_of_fetch_stopped hr hf⟩

/-- A reflexive relation that every step extends to the left relates the two ends of every run. -/
theorem run_related {R : State → State → Prop} (hrefl : ∀ s, R s s)
    (hstep : ∀ s t u, step s = .next t → R t u → R s u) :
    ∀ (n : Nat) (s t : State), core.run n s = .next t → R s t := by
  intro n
  induction n with
  | zero => intro s t h; cases h; exact hrefl s
  | succ n ih =>
    intro s t h
    simp only [Host.Core.run] at h
    split at h
    · next u hu => exact hstep s u t hu (ih u t h)
    · cases h
    · cases h

/-! ### The output stream -/

/-- The one instruction that emits is PRN of a legal register. -/
theorem Effect.out_cases {i : Instr} {s t : State} (h : Effect i s t) :
    t.out = s.out ∨ ∃ (a : Byte) (ha : a.toNat < 8), i = .prn a ∧ t.out = s.out ++ [s.reg ⟨a.toNat, ha⟩] := by
  cases h
  case prn a ha => exact .inr ⟨a, ha, rfl, rfl⟩
  all_goals exact .inl rfl

theorem exec_extends_out {i : Instr} {s t : State} (h : exec i s = .next t) : s.out <+: t.out := by
  obtain ho | ⟨a, ha, -, ho⟩ := (exec_effect h).out_cases
  · rw [ho]
  · exact ⟨_, ho.symm⟩

theorem fetch_stopped_out {s t : State} (hp : 254 ≤ s.pc.toNat) (h : fetch s = .stopped t) : t.out = s.out := by
  obtain ⟨addr, op, u, hf, -, -, -, ir, opa, rfl⟩ := fetch_outside hp
  cases h.symm.trans hf
  rfl

theorem step_extends_out {s t : State} (h : step s = .next t) : s.out <+: t.out := by
  obtain ⟨-, ⟨hp, hf⟩ | ⟨-, i, -, he⟩ | ⟨-, -, rfl⟩⟩ := step_cases h
  · rw [fetch_stopped_out hp hf]
  · exact exec_extends_out (s := latch s) he
  · exact List.prefix_rfl

/-! ### Ports -/

theorem hostAct_peek {s : State} (hs : s.status ≠ .running) (q : PeekRequest) :
    hostAct (.peek q) s = (s, .value (peekValue s q)) := if_neg hs

end Sys2Proof.Machine

namespace Sys2Proof.Statements

open Sys2Proof.Machine

/-! ### Hidden flags -/

theorem sameButHiddenFlags_setFl {s : State} {f : Byte} (hE : equalSet f = equalSet s.fl) :
    sameButHiddenFlags s (s.setFl f) := ⟨rfl, hE.symm⟩

/-- A state related to `s` is `s` with another FL of the same Equal bit. -/
theorem sameButHiddenFlags.eq_setFl {s t : State} (h : sameButHiddenFlags s t) :
    ∃ f, t = s.setFl f ∧ equalSet f = equalSet s.fl := by
  obtain ⟨hfields, hE⟩ := h
  have hput : ∀ u : State, ({ u with fl := 0#8 } : State).setFl u.fl = u := fun _ => rfl
  have ht : ({ s with fl := 0#8 } : State).setFl t.fl = t := by rw [hfields]; exact hput t
  exact ⟨t.fl, ht.symm, hE.symm⟩

theorem exec_sameOutcomes (i : Instr) {s : State} {f : Byte} (hE : equalSet f = equalSet s.fl) :
    sameOutcomes (exec i s) (exec i (s.setFl f)) := by
  obtain ⟨t, ht⟩ := exec_answers_next i s
  obtain ⟨hfl, he⟩ | ⟨-, he⟩ := (exec_effect ht).setFl f (fun _ _ => hE)
  · rw [ht, he.exec_eq]
    exact sameButHiddenFlags_setFl (hE.trans (congrArg equalSet hfl.symm))
  · rw [ht, he.exec_eq]
    exact ⟨rfl, rfl⟩

/-- One step of the relation of R24: steps from related states end alike. -/
theorem step_sameOutcomes {s t : State} (h : sameButHiddenFlags s t) : sameOutcomes (step s) (step t) := by
  obtain ⟨f, rfl, hE⟩ := h.eq_setFl
  by_cases hr : s.status = .running
  · by_cases hp : s.pc.toNat ≤ 253
    · rw [step_inside hr hp, step_inside (s := s.setFl f) hr hp]
      simp only [latch_setFl, setFl_ir, setFl_opa, setFl_opb]
      split
      · exact exec_sameOutcomes _ hE
      · exact sameButHiddenFlags_setFl (s := stopBadOpcode (latch s)) hE
    · obtain ⟨addr, op, u, hf, -, -, -, ir, opa, rfl⟩ := fetch_outside (s := s) (by omega)
      rw [step_of_fetch_stopped hr hf, step_of_fetch_stopped (s := s.setFl f) hr (fetch_stopped_setFl f hf)]
      exact sameButHiddenFlags_setFl hE
  · rw [step_stuck hr, step_stuck (s := s.setFl f) hr]
    rfl

end Sys2Proof.Statements

namespace Sys2Proof.Proofs.StateRules

open Sys2Proof.Machine Sys2Proof.Statements

/-- Settles O36: no effect but CMP's writes FL and none but a conditional jump's reads it (`Effect.setFl`). -/
theorem flagRegisterAccess : Obligations.FlagRegisterAccess := by
  refine ⟨fun i s t => exec_keeps_fl, fun a b s f ha hb => exec_cmp_setFl ha hb s f, ?_, ?_,
    fun s t => step_sameOutcomes, ?_⟩
  · intro i s t f hcmp hjump h
    refine exec_setFl hcmp (fun a ha => ?_) h
    obtain ⟨hjeq, hjne⟩ := hjump a
    exact absurd ha (not_or.mpr ⟨hjeq, hjne⟩)
  · intro a s t f hE
    exact ⟨exec_setFl (by simp) (fun _ _ => hE), exec_setFl (by simp) (fun _ _ => hE)⟩
  · intro s hs
    simp [hostAct_peek hs, peekValue]

/-- Settles O44: only PRN of a legal register emits, and a run is a chain of steps that each extend the stream. -/
theorem outputStreamGrowsByPrn : Obligations.OutputStreamGrowsByPrn := by
  refine ⟨?_, fun a s ha => ⟨_, (Effect.prn s a ha).exec_eq, rfl⟩, ?_, fun s => rfl, ?_⟩
  · intro i s t hprn h
    obtain ho | ⟨a, -, hi, -⟩ := (exec_effect h).out_cases
    · exact ho
    · exact absurd hi (hprn a)
  · intro a s t h8 h
    obtain ho | ⟨a', ha', hi, -⟩ := (exec_effect h).out_cases
    · exact ho
    · cases hi
      omega
  · exact run_related (fun _ => List.prefix_rfl) (fun _ _ _ hs hp => (step_extends_out hs).trans hp)

/-- Settles O48: the fields of `resetAction`; R0 to R6 lie before the pushed SP in `resetRegs`. -/
theorem resetAction : Obligations.ResetAction := by
  intro s
  have hgpr (k : Nat) (h : k < 7) : (Machine.resetAction s).reg ⟨k, by omega⟩ = s.params.gprReset[k] := by
    simp [State.reg, resetRegs, Vector.getElem_push_lt h]
  have hsp : (Machine.resetAction s).reg 7 = 244#8 := by
    simp [State.reg, resetRegs]
  exact ⟨_, rfl, hgpr, hsp, rfl, rfl, rfl, rfl, rfl, rfl, rfl, rfl, rfl⟩

/-- Settles O50: the two answers of each port, and `step_answers_next`. -/
theorem loadAndStartPorts : Obligations.LoadAndStartPorts := by
  intro s addr data
  refine ⟨fun h => ⟨s.mem.write addr.toNat data, if_neg h, Memory.read_write_same .., ?_⟩, fun h => if_pos h,
    fun h => if_pos h, fun h => if_neg h, step_answers_next⟩
  exact fun other hne => Memory.read_write_other _ _ _ _ hne

/-- Settles O51: peek answers `peekValue`, which widens a byte to 9 bits. -/
theorem peekPort : Obligations.PeekPort := by
  intro s
  refine ⟨fun q hr => if_pos hr, fun hs => ?_⟩
  simp [hostAct_peek hs, peekValue]

/-- Settles O52: each status has its code of R28, and the other ports are the fields themselves. -/
theorem outputPortsShowStatus : Obligations.OutputPortsShowStatus := by
  intro s
  refine ⟨?_, rfl, rfl, rfl, rfl⟩
  simp only [State.outputPorts]
  cases s.status <;> rfl

end Sys2Proof.Proofs.StateRules

/-! PROOFS. The one-byte memory read and write (20_memory.md). -/

namespace Sys2Proof.Machine

theorem memWrite_outside {addr : Nat} (v : Byte) (s : State) (h : 256 ≤ addr) :
    memWrite addr v s = .error (.addressFault addr) :=
  if_neg (Nat.not_lt.mpr h)

end Sys2Proof.Machine

namespace Sys2Proof.Proofs.MemoryRules
open Sys2Proof.Machine

/-- Settles O8: the two answers of each access, and what the written cell and the others read afterwards (R45, R46). -/
theorem memoryAccessPrimitives : Obligations.MemoryAccessPrimitives := by
  intro s addr v
  refine ⟨memRead_inside s, memRead_outside s, fun h => ?_, memWrite_outside v s⟩
  exact ⟨s.mem.write addr v, memWrite_inside v s h, Memory.read_write_same .., fun other hne =>
    Memory.read_write_other _ _ _ _ hne⟩

end Sys2Proof.Proofs.MemoryRules

/-! PROOFS. The decoder against the opcode bytes of the table (30_encoding.md). -/

namespace Sys2Proof.Statements

/-- The table's opcode bytes, as the code of each instruction of the opcode map (R70). -/
theorem opcodeBytes_eq_map_code : opcodeBytes = (opcodeMap.map Prod.snd).map Op.code := rfl

theorem mem_opcodeMap_instructions (op : Op) : op ∈ opcodeMap.map Prod.snd := by cases op <;> decide

theorem mem_opcodeBytes_iff {ir : Byte} : ir ∈ opcodeBytes ↔ ∃ op : Op, op.code = ir := by
  rw [opcodeBytes_eq_map_code, List.mem_map]
  exact exists_congr fun op => and_iff_right (mem_opcodeMap_instructions op)

/-- R73: a byte outside the table is unrecognised, with any operand bytes. -/
theorem decode_of_not_mem_opcodeBytes {ir : Byte} (h : ir ∉ opcodeBytes) (a b : Byte) :
    decode ir a b = .error (.unrecognisedOpcode ir) := by
  obtain ⟨op, hir, -⟩ | ⟨-, hd⟩ := decode_cases ir a b
  · exact absurd (mem_opcodeBytes_iff.mpr ⟨op, hir.symm⟩) h
  · exact hd

end Sys2Proof.Statements

namespace Sys2Proof.Proofs.Encoding

open Sys2Proof.Statements

/-- Settles O4: a byte of the table is the code of one instruction, which `decode_code` reads; any other is rejected. -/
theorem decoderMatchesWholeOpcode : Obligations.DecoderMatchesWholeOpcode := by
  intro ir
  by_cases h : ir ∈ opcodeBytes
  · obtain ⟨op, hop⟩ := mem_opcodeBytes_iff.mp h
    refine .inl ⟨h, op, hop, fun a b => ⟨op.build a b, ?_, op_build op a b⟩⟩
    rw [← hop, decode_code]
  · exact .inr ⟨h, decode_of_not_mem_opcodeBytes h⟩

end Sys2Proof.Proofs.Encoding

/-! PROOFS. The control unit: the fetch and its fault, the operand check, the stops and pc (40_control_unit.md). -/

namespace Sys2Proof

/-- An instruction built with a register in field a has that byte as its first operand (R69). -/
theorem Op.head?_operands_build {op : Op} (hk : op.control.aKind = .register) (a b : Byte) :
    (op.build a b).operands.head? = some a := by
  cases op
  case hlt | ret => cases hk
  all_goals rfl

/-- An instruction built with a register in field b has both bytes as its operands (R69). -/
theorem Op.operands_build {op : Op} (hk : op.control.bKind = .register) (a b : Byte) :
    (op.build a b).operands = [a, b] := by
  cases op
  case mul | add | cmp => rfl
  all_goals cases hk

theorem legalReg_eq_false {byte : Byte} (h8 : 8 ≤ byte.toNat) : legalReg byte = false :=
  decide_eq_false (Nat.not_lt.mpr h8)

theorem Instr.wf_eq_false_of_illegal_a {i : Instr} {a : Byte} (hop : i.operands.head? = some a) (h8 : 8 ≤ a.toNat)
    (hk : i.op.control.aKind = .register) : i.wf = false := by
  cases i <;> cases hop <;> simp [Instr.wf, legalReg_eq_false h8]

theorem Instr.wf_eq_false_of_illegal_b {i : Instr} {a b : Byte} (hop : i.operands = [a, b]) (h8 : 8 ≤ b.toNat)
    (hk : i.op.control.bKind = .register) : i.wf = false := by
  cases i <;> cases hop
  case ldi => cases hk
  all_goals simp [Instr.wf, legalReg_eq_false h8]

end Sys2Proof

namespace Sys2Proof.Machine

open Sys2Proof.Statements

/-! ### The fetch -/

/-- R86, R87: past 253 the step is the address fault 256 of the fetch. -/
theorem step_at_end {s : State} (hr : s.status = .running) (hlo : 254 ≤ s.pc.toNat) (hhi : s.pc.toNat ≤ 256) :
    ∃ t, step s = .next t ∧ t.status = .addressFault ∧ t.stopPc = s.pc ∧ t.stopInfo = 256#9 ∧
      t.stopOpcode = (if s.pc.toNat = 256 then 0#8 else s.mem.read s.pc.toNat) ∧ sameProgramState s t := by
  obtain ⟨addr, op, t, hf, -, haddr, hop, ir, opa, rfl⟩ := fetch_outside hlo
  obtain rfl := haddr hhi
  refine ⟨_, step_of_fetch_stopped hr hf, rfl, rfl, rfl, ?_, rfl, rfl, rfl, rfl, rfl, rfl⟩
  rw [takeStop_stopOpcode, hop]
  by_cases h : s.pc.toNat = 256
  · simp [h]
  · simp [h, show s.pc.toNat ≤ 255 by omega]

/-- At 254 and 255 every opcode byte takes the fetch fault, HLT and unrecognised ones among them (R87). -/
theorem fetchFaultsAtEnd_of_opcode (op : Byte) : fetchFaultsAtEnd op := by
  rintro s hr hlo hhi rfl
  obtain ⟨t, hstep, hstatus, hpc, hinfo, hopcode, hsame⟩ := step_at_end hr hlo (by omega)
  rw [if_neg (by omega)] at hopcode
  exact ⟨t, hstep, hstatus, hpc, hopcode, hinfo, hsame⟩

/-- R89: an unrecognised byte whose three fetch reads succeed. -/
theorem step_of_not_mem_opcodeBytes {s : State} (hr : s.status = .running) (hp : s.pc.toNat ≤ 253)
    (h : s.mem.read s.pc.toNat ∉ opcodeBytes) : step s = .next (stopBadOpcode (latch s)) := by
  rw [step_inside hr hp, decode_of_not_mem_opcodeBytes (ir := (latch s).ir) h]

/-! ### An instruction stops or completes -/

/-- An instruction either stops, for HLT, an illegal register field or the stack, or completes; a completed one keeps
the run status and the latches. -/
theorem Effect.stops_or_completes {i : Instr} {s t : State} (h : Effect i s t) :
    (∃ c, t = takeStop c s.ir s ∧
      (c = .halted ∨ (∃ byte, c = .registerIndexFault byte ∧ i.wf = false) ∨ ∃ sp, c = .stackFault sp)) ∨
    (t.status = s.status ∧ t.ir = s.ir ∧ t.opa = s.opa ∧ t.opb = s.opb) := by
  cases h with
  | badA _ _ a hop h8 hk => exact .inl ⟨_, rfl, .inr (.inl ⟨a, rfl, Instr.wf_eq_false_of_illegal_a hop h8 hk⟩)⟩
  | badB _ _ a b hop _ h8 hk => exact .inl ⟨_, rfl, .inr (.inl ⟨b, rfl, Instr.wf_eq_false_of_illegal_b hop h8 hk⟩)⟩
  | hlt => exact .inl ⟨_, rfl, .inl rfl⟩
  | pushFull | popEnd | retEnd | callFull => exact .inl ⟨_, rfl, .inr (.inr ⟨_, rfl⟩)⟩
  | _ => exact .inr ⟨rfl, rfl, rfl, rfl⟩

/-- No instruction raises the fetch's address fault: its accesses are all inside memory (R144). -/
theorem Effect.status_ne_addressFault {i : Instr} {s t : State} (h : Effect i s t) (hs : s.status = .running) :
    t.status ≠ .addressFault := by
  obtain ⟨c, rfl, rfl | ⟨_, rfl, -⟩ | ⟨_, rfl⟩⟩ | ⟨hst, -⟩ := h.stops_or_completes
  · simp [StopCause.status]
  · simp [StopCause.status]
  · simp [StopCause.status]
  · simp [hst, hs]

/-- A well-formed instruction never takes the register fault (R90). -/
theorem Effect.status_ne_registerIndexFault {i : Instr} {s t : State} (h : Effect i s t) (hs : s.status = .running)
    (hwf : i.wf = true) : t.status ≠ .registerIndexFault := by
  obtain ⟨c, rfl, rfl | ⟨_, -, hbad⟩ | ⟨_, rfl⟩⟩ | ⟨hst, -⟩ := h.stops_or_completes
  · simp [StopCause.status]
  · simp [hwf] at hbad
  · simp [StopCause.status]
  · simp [hst, hs]

theorem Effect.keeps_latches {i : Instr} {s t : State} (h : Effect i s t) :
    t.ir = s.ir ∧ t.opa = s.opa ∧ t.opb = s.opb := by
  obtain ⟨c, rfl, -⟩ | ⟨-, hlatches⟩ := h.stops_or_completes
  · exact ⟨rfl, rfl, rfl⟩
  · exact hlatches

/-! ### The next pc (R91) -/

/-- A stop leaves pc (R148). -/
theorem Effect.pc_of_stop {i : Instr} {s t : State} (h : Effect i s t) (hs : s.status = .running)
    (ht : t.status ≠ .running) : t.pc = s.pc := by
  obtain ⟨c, rfl, -⟩ | ⟨hst, -⟩ := h.stops_or_completes
  · rfl
  · exact absurd (hst.trans hs) ht

/-- The SEQ selection: a completed instruction moves pc past its own bytes. -/
theorem Effect.pc_of_seq {i : Instr} {s t : State} (h : Effect i s t) (ht : t.status = .running)
    (hsel : i.op.control.pcSel = .seq) : t.pc = s.pc + BitVec.ofNat 9 i.op.control.length := by
  cases h
  case badA | badB | pushFull | popEnd => cases ht
  case ldi | prn | mul | add | cmp | push | pop => rfl
  all_goals cases hsel

/-- From a pc where an instruction can stand, pc + length stays inside the 9 bits of pc. -/
theorem toNat_add_length {p : Word9} (hp : p.toNat ≤ 253) (op : Op) :
    (p + BitVec.ofNat 9 op.control.length).toNat = p.toNat + op.control.length := by
  have hlen : op.control.length ≤ 3 := by cases op <;> decide
  rw [BitVec.toNat_add, BitVec.toNat_ofNat]
  omega

theorem step_pc_of_stop {s t : State} (h : step s = .next t) (ht : t.status ≠ .running) : t.pc = s.pc := by
  obtain ⟨hr, ⟨hp, hf⟩ | ⟨-, i, -, he⟩ | ⟨-, -, rfl⟩⟩ := step_cases h
  · obtain ⟨addr, op, u, hf', -, -, -, ir, opa, rfl⟩ := fetch_outside hp
    cases hf'.symm.trans hf
    rfl
  · exact (exec_effect he).pc_of_stop (s := latch s) hr ht
  · rfl

end Sys2Proof.Machine

namespace Sys2Proof.Proofs.ControlUnit

open Sys2Proof.Machine Sys2Proof.Statements

/-- Settles O11: `fetch_inside` and `step_at_end` are the two sides of 253; no instruction stops for an address. -/
theorem fetchLoadsOrFaults : Obligations.FetchLoadsOrFaults :=
  ⟨fun _ hp => fetch_inside hp, fun _ => step_at_end,
    fun _ _ _ hs h => (exec_effect h).status_ne_addressFault hs, fun _ _ _ h => (exec_effect h).keeps_latches⟩

/-- Settles O14: each illegal field stops the instruction, a first, and no other cause is a register fault. -/
theorem registerFieldsCheckedFirst : Obligations.RegisterFieldsCheckedFirst := by
  intro op a b s
  refine ⟨fun hk h8 => ?_, fun hk ha h8 => ?_, fun t hs hwf h => (exec_effect h).status_ne_registerIndexFault hs hwf⟩
  · exact exec_of_illegal_a (op.head?_operands_build hk a b) h8 (by rwa [op_build])
  · exact exec_of_illegal_b (op.operands_build hk a b) ha h8 (by rwa [op_build])

/-- Settles O38: `Effect.pc_of_stop` for the stops, `Effect.pc_of_seq` for SEQ; each other selection belongs to one
instruction, whose completed effect sets pc to the selected value. -/
theorem pcFollowsSelection : Obligations.PcFollowsSelection := by
  refine ⟨fun op a b s t hs h => ⟨(exec_effect h).pc_of_stop hs, fun ht r hr => ?_⟩, fun s t => step_pc_of_stop, ?_⟩
  · have hreg (hk : op.control.aKind = .register) (ha : a.toNat < 8) : r = ⟨a.toNat, ha⟩ := Fin.ext (hr hk)
    have he := exec_effect h
    cases op
    case hlt => cases he <;> cases ht
    case ldi | prn | mul | add | push | pop | cmp =>
      have hpc := he.pc_of_seq ht rfl
      exact ⟨hpc, fun hp => (congrArg BitVec.toNat hpc).trans (toNat_add_length hp _)⟩
    case ret =>
      cases he
      case ret => exact toPc_toNat _
      all_goals cases ht
    case call =>
      cases he
      case call ha _ => rw [hreg rfl ha]; exact toPc_toNat _
      all_goals cases ht
    case jmp =>
      cases he
      case jmp ha => rw [hreg rfl ha]; exact toPc_toNat _
      all_goals cases ht
    case jeq =>
      cases he
      case jeqTaken ha hE => rw [hreg rfl ha]; exact (if_pos hE).mpr (toPc_toNat _)
      case jeqNotTaken ha hE => exact (if_neg (Bool.eq_false_iff.mp hE)).mpr rfl
      all_goals cases ht
    case jne =>
      cases he
      case jneTaken ha hE => rw [hreg rfl ha]; exact (if_neg (Bool.eq_false_iff.mp hE)).mpr (toPc_toNat _)
      case jneNotTaken ha hE => exact (if_pos hE).mpr rfl
      all_goals cases ht
  · intro op hlen
    cases op
    case hlt => exact .inl rfl
    case ret => exact .inr rfl
    all_goals cases hlen

/-- Settles O12: the opcode is looked up after the fetch, which faults at 254 and 255 before it. -/
theorem unrecognisedOpcodeStops : Obligations.UnrecognisedOpcodeStops := by
  intro s hr h
  refine ⟨fun hp => step_of_not_mem_opcodeBytes hr hp h, fun hp => ?_⟩
  obtain ⟨t, hstep, hstatus, -, -, -, hsame⟩ := step_at_end hr (by omega) (by omega)
  exact ⟨t, hstep, hstatus, hsame⟩

/-- Settles O19: HLT's one effect is the stop `halted`. -/
theorem hltHalts : Obligations.HltHalts :=
  ⟨rfl, decode_code .hlt, fun s => (Effect.hlt s).exec_eq, fetchFaultsAtEnd_of_opcode _⟩

end Sys2Proof.Proofs.ControlUnit

/-! PROOFS. LDI and PRN (41_data_movement.md). -/

namespace Sys2Proof.Proofs.DataMovement

open Sys2Proof.Machine Sys2Proof.Statements

/-- Settles O20: the effect `ldi` for a legal field, `badA` for an illegal one, and the fetch fault of every opcode. -/
theorem ldiLoadsImmediate : Obligations.LdiLoadsImmediate := fun a b =>
  ⟨rfl, decode_code .ldi a b, fun s ha => (Effect.ldi s a b ha).exec_eq,
    fun _ h8 => exec_of_illegal_a rfl h8 rfl, fetchFaultsAtEnd_of_opcode _⟩

/-- Settles O21: the effect `prn` for a legal field, `badA` for an illegal one, and the fetch fault of every opcode. -/
theorem prnEmitsRegister : Obligations.PrnEmitsRegister := fun a =>
  ⟨rfl, decode_code .prn a, fun s ha => (Effect.prn s a ha).exec_eq,
    fun _ h8 => exec_of_illegal_a rfl h8 rfl, fetchFaultsAtEnd_of_opcode _⟩

end Sys2Proof.Proofs.DataMovement

/-! PROOFS. The ALU and its instructions ADD, MUL and CMP (42_alu.md). -/

namespace Sys2Proof.Machine

/-- R116: the sum does not depend on the order of the operands. -/
theorem alu_add_comm (share : Bool) (u v : Byte) : alu share aluAdd u v = alu share aluAdd v u := by
  simp only [alu_add, Nat.add_comm]

/-- R116: the product does not depend on the order of the operands. -/
theorem alu_mul_comm (share : Bool) (u v : Byte) : alu share aluMul u v = alu share aluMul v u := by
  simp only [alu_mul, Nat.mul_comm]

/-- R111: select 3 names no operation. -/
theorem alu_unsupported (share : Bool) (u v : Byte) : alu share 3#2 u v = .error (.aluFault 3#2) := rfl

end Sys2Proof.Machine

namespace Sys2Proof.Proofs.Alu

open Sys2Proof.Machine Sys2Proof.Statements

/-- Settles O22: the effect `add` for legal fields, `badA` and `badB` for an illegal one, and the fetch fault of every
opcode. -/
theorem addAddsModulo256 : Obligations.AddAddsModulo256 := fun a b =>
  ⟨rfl, decode_code .add a b, fun s ha hb => (Effect.add s a b ha hb).exec_eq,
    fun _ h8 => exec_of_illegal_a rfl h8 rfl, fun _ ha h8 => exec_of_illegal_b rfl ha h8 rfl,
    fetchFaultsAtEnd_of_opcode _⟩

/-- Settles O23: the effect `mul` for legal fields, `badA` and `badB` for an illegal one, and the fetch fault of every
opcode. -/
theorem mulMultipliesModulo256 : Obligations.MulMultipliesModulo256 := fun a b =>
  ⟨rfl, decode_code .mul a b, fun s ha hb => (Effect.mul s a b ha hb).exec_eq,
    fun _ h8 => exec_of_illegal_a rfl h8 rfl, fun _ ha h8 => exec_of_illegal_b rfl ha h8 rfl,
    fetchFaultsAtEnd_of_opcode _⟩

/-- Settles O24: the effect `cmp`, whose `cmpFlags` is the pattern of R115 by definition, `badA` and `badB` for an illegal
field, and the fetch fault of every opcode. -/
theorem cmpReplacesFlags : Obligations.CmpReplacesFlags := fun a b =>
  ⟨rfl, decode_code .cmp a b, fun s ha hb => (Effect.cmp s a b ha hb).exec_eq,
    fun _ h8 => exec_of_illegal_a rfl h8 rfl, fun _ ha h8 => exec_of_illegal_b rfl ha h8 rfl,
    fetchFaultsAtEnd_of_opcode _⟩

/-- Settles O32: the answer of each select, commutativity, and the row of each opcode in the control table (R88). -/
theorem aluSelects : Obligations.AluSelects := by
  refine ⟨fun share u v => ?_, fun op => ?_⟩
  · exact ⟨alu_add share u v, alu_mul share u v, alu_cmp share u v, alu_unsupported share u v,
      alu_add_comm share u v, alu_mul_comm share u v⟩
  · cases op <;> rfl

end Sys2Proof.Proofs.Alu

/-! PROOFS. PUSH and POP (43_stack.md). -/

namespace Sys2Proof.Proofs.Stack

open Sys2Proof.Machine Sys2Proof.Statements

/-- Settles O25: the effect `push` where SP is not 0 and `pushFull` where it is, `badA` for an illegal field, and the
fetch fault of every opcode. -/
theorem pushStoresBelowSp : Obligations.PushStoresBelowSp := fun a =>
  ⟨rfl, decode_code .push a, fun s ha h0 => (Effect.push s a ha h0).exec_eq,
    fun s ha h0 => (Effect.pushFull s a ha h0).exec_eq, fun _ h8 => exec_of_illegal_a rfl h8 rfl,
    fetchFaultsAtEnd_of_opcode _⟩

/-- Settles O26: the effect `pop` where SP is not 255 and `popEnd` where it is, `badA` for an illegal field, and the
fetch fault of every opcode. -/
theorem popLoadsFromSp : Obligations.PopLoadsFromSp := fun a =>
  ⟨rfl, decode_code .pop a, fun s ha h0 => (Effect.pop s a ha h0).exec_eq,
    fun s ha h0 => (Effect.popEnd s a ha h0).exec_eq, fun _ h8 => exec_of_illegal_a rfl h8 rfl,
    fetchFaultsAtEnd_of_opcode _⟩

end Sys2Proof.Proofs.Stack

/-! PROOFS. CALL, RET and the jumps (44_control_transfer.md). -/

namespace Sys2Proof.Machine

theorem toPc_eq_ofNat (v : Byte) : toPc v = BitVec.ofNat 9 v.toNat := (BitVec.ofNat_toNat 9 v).symm

/-- An effect that sends pc to a byte is an instruction that sets pc to that byte's number (R133). -/
theorem Effect.exec_eq_jump {i : Instr} {s t : State} {v : Byte} (h : Effect i s (t.setPc (toPc v))) :
    exec i s = .next { t with pc := BitVec.ofNat 9 v.toNat } := by
  rw [← toPc_eq_ofNat]
  exact h.exec_eq

/-- The return address is `p + 2` modulo 256 (R130). -/
theorem returnAddress_eq_ofNat (s : State) : returnAddress s = BitVec.ofNat 8 (s.pc.toNat + 2) := by
  apply BitVec.eq_of_toNat_eq
  simp only [returnAddress, BitVec.toNat_setWidth, BitVec.toNat_add, BitVec.toNat_ofNat]
  omega

/-- A push changes no register but SP (R121). -/
theorem reg_pushed (s : State) (v : Byte) (i : RegIndex) :
    (pushed s v).reg i = if Config.spIndex = i then s.sp - 1#8 else s.reg i :=
  reg_setReg s Config.spIndex i (s.sp - 1#8)

/-- Where there is room, the SP that a push leaves is the address it wrote (R121). -/
theorem toNat_sp_sub_one {s : State} (h0 : s.sp ≠ 0#8) : (s.sp - 1#8).toNat = pushAddress s := by
  unfold pushAddress
  bv_omega

/-- The target CALL reads after its push: for R7 the new SP (R130). -/
theorem toNat_reg_pushed {s : State} (v : Byte) (i : RegIndex) (h0 : s.sp ≠ 0#8) :
    ((pushed s v).reg i).toNat = if i.val = 7 then s.sp.toNat - 1 else (s.reg i).toNat := by
  rw [reg_pushed]
  by_cases hi : Config.spIndex = i
  · have hval : i.val = 7 := congrArg Fin.val hi.symm
    rw [if_pos hi, if_pos hval, toNat_sp_sub_one h0, pushAddress]
  · rw [if_neg hi, if_neg (fun h => hi (Fin.ext h.symm))]

/-- The state CALL leaves where SP is not 0 (R130). -/
theorem exec_call_room {s : State} {a : Byte} (ha : a.toNat < 8) (h0 : s.sp ≠ 0#8) :
    exec (.call a) s =
      .next { pushed s (BitVec.ofNat 8 (s.pc.toNat + 2)) with
        pc := BitVec.ofNat 9 (if a.toNat = 7 then s.sp.toNat - 1 else (s.reg ⟨a.toNat, ha⟩).toNat) } := by
  rw [(Effect.call s a ha h0).exec_eq_jump, toNat_reg_pushed _ _ h0, returnAddress_eq_ofNat]

end Sys2Proof.Machine

namespace Sys2Proof.Proofs.ControlTransfer

open Sys2Proof.Machine Sys2Proof.Statements

/-- Settles O27: the effect `call` where SP is not 0 and `callFull` where it is, `badA` for an illegal field, and the
fetch fault of every opcode. -/
theorem callPushesReturnAddress : Obligations.CallPushesReturnAddress := fun a =>
  ⟨rfl, decode_code .call a, fun _ ha h0 _ => exec_call_room ha h0,
    fun s ha h0 => (Effect.callFull s a ha h0).exec_eq, fun _ h8 => exec_of_illegal_a rfl h8 rfl,
    fetchFaultsAtEnd_of_opcode _⟩

/-- Settles O28: the effect `ret` where SP is not 255 and `retEnd` where it is, and the fetch fault of every opcode. -/
theorem retPopsIntoPc : Obligations.RetPopsIntoPc :=
  ⟨rfl, decode_code .ret, fun s h0 => (Effect.ret s h0).exec_eq_jump, fun s h0 => (Effect.retEnd s h0).exec_eq,
    fetchFaultsAtEnd_of_opcode _⟩

/-- Settles O29: the effect `jmp` for a legal field, `badA` for an illegal one, and the fetch fault of every opcode. -/
theorem jmpJumpsToRegister : Obligations.JmpJumpsToRegister := fun a =>
  ⟨rfl, decode_code .jmp a, fun s ha => (Effect.jmp s a ha).exec_eq_jump,
    fun _ h8 => exec_of_illegal_a rfl h8 rfl, fetchFaultsAtEnd_of_opcode _⟩

/-- Settles O30: the effect `jeqTaken` with the Equal bit set and `jeqNotTaken` with it clear, `badA` for an illegal
field, and the fetch fault of every opcode. -/
theorem jeqJumpsWhenEqual : Obligations.JeqJumpsWhenEqual := fun a =>
  ⟨rfl, decode_code .jeq a, fun s ha hE => (Effect.jeqTaken s a ha hE).exec_eq_jump,
    fun s ha hE => (Effect.jeqNotTaken s a ha hE).exec_eq, fun _ h8 => exec_of_illegal_a rfl h8 rfl,
    fetchFaultsAtEnd_of_opcode _⟩

/-- Settles O31: the effect `jneTaken` with the Equal bit clear and `jneNotTaken` with it set, `badA` for an illegal
field, and the fetch fault of every opcode. -/
theorem jneJumpsWhenNotEqual : Obligations.JneJumpsWhenNotEqual := fun a =>
  ⟨rfl, decode_code .jne a, fun s ha hE => (Effect.jneTaken s a ha hE).exec_eq_jump,
    fun s ha hE => (Effect.jneNotTaken s a ha hE).exec_eq, fun _ h8 => exec_of_illegal_a rfl h8 rfl,
    fetchFaultsAtEnd_of_opcode _⟩

end Sys2Proof.Proofs.ControlTransfer

/-! PROOFS. The stops: their order, what they report and what leaves them (60_exceptions.md). -/

namespace Sys2Proof

/-- The stop of R149 that an instruction takes after its fetch and decode: field a, field b, the stack, then HLT. -/
def Op.firstStop (op : Op) (a b sp : Byte) : Option Machine.StopCause :=
  if op.control.aKind = .register ∧ 8 ≤ a.toNat then some (.registerIndexFault a)
  else if op.control.bKind = .register ∧ 8 ≤ b.toNat then some (.registerIndexFault b)
  else if op.control.stackOp = .push ∧ sp = 0#8 then some (.stackFault sp)
  else if op.control.stackOp = .pop ∧ sp = 255#8 then some (.stackFault sp)
  else if op = .hlt then some .halted
  else none

/-- A field that a check for an illegal byte lets through is legal where the check applies. -/
theorem legal_of_check {applies : Prop} {byte : Byte} (h : ¬ (applies ∧ 8 ≤ byte.toNat)) (happ : applies) :
    byte.toNat < 8 :=
  Nat.not_le.mp (not_and.mp h happ)

theorem Op.firstStop_eq_none {op : Op} {a b sp : Byte} (h : op.firstStop a b sp = none) :
    (op.control.aKind = .register → a.toNat < 8) ∧ (op.control.bKind = .register → b.toNat < 8) ∧
      (op.control.stackOp = .push → sp ≠ 0#8) ∧ (op.control.stackOp = .pop → sp ≠ 255#8) ∧ op ≠ .hlt := by
  unfold Op.firstStop at h
  split_ifs at h with ha hb hpush hpop hhlt
  exact ⟨legal_of_check ha, legal_of_check hb, not_and.mp hpush, not_and.mp hpop, hhlt⟩

/-- Only an instruction with a register in field a has one in field b (R69). -/
theorem Op.aKind_of_bKind {op : Op} (h : op.control.bKind = .register) : op.control.aKind = .register := by
  cases op
  case mul | add | cmp => rfl
  all_goals cases h

/-- The stops of an instruction, with what each carries: the byte of the first illegal field, or SP. -/
theorem Op.firstStop_eq_some {op : Op} {a b sp : Byte} {c : Machine.StopCause} (h : op.firstStop a b sp = some c) :
    c = .registerIndexFault (if 8 ≤ a.toNat then a else b) ∨ c = .stackFault sp ∨ c = .halted := by
  unfold Op.firstStop at h
  split_ifs at h with ha hb <;> cases h
  · exact .inl (by rw [if_pos ha.2])
  · exact .inl (by rw [if_neg (not_and.mp ha (Op.aKind_of_bKind hb.1))])
  · exact .inr (.inl rfl)
  · exact .inr (.inl rfl)
  · exact .inr (.inr rfl)

end Sys2Proof

namespace Sys2Proof.Machine

theorem info_registerIndexFault_ite (p : Prop) [Decidable p] (a b : Byte) :
    (StopCause.registerIndexFault (if p then a else b)).info = if p then a.setWidth 9 else b.setWidth 9 :=
  apply_ite (BitVec.setWidth 9) p a b

/-! ### An instruction takes its first stop, or completes -/

theorem exec_of_firstStop_some {op : Op} {a b : Byte} {s : State} {c : StopCause}
    (h : op.firstStop a b s.sp = some c) : exec (op.build a b) s = .next (takeStop c s.ir s) := by
  unfold Op.firstStop at h
  split_ifs at h with ha hb hpush hpop hhlt <;> cases h
  · exact exec_of_illegal_a (op.head?_operands_build ha.1 a b) ha.2 (by rw [op_build, ha.1])
  · have hlegal : a.toNat < 8 := legal_of_check ha (Op.aKind_of_bKind hb.1)
    exact exec_of_illegal_b (op.operands_build hb.1 a b) hlegal hb.2 (by rw [op_build, hb.1])
  · obtain ⟨hk, h0⟩ := hpush
    rw [h0]
    cases op
    case push => exact (Effect.pushFull s a (legal_of_check ha rfl) h0).exec_eq
    case call => exact (Effect.callFull s a (legal_of_check ha rfl) h0).exec_eq
    all_goals cases hk
  · obtain ⟨hk, h0⟩ := hpop
    rw [h0]
    cases op
    case pop => exact (Effect.popEnd s a (legal_of_check ha rfl) h0).exec_eq
    case ret => exact (Effect.retEnd s h0).exec_eq
    all_goals cases hk
  · rw [hhlt]
    exact (Effect.hlt s).exec_eq

theorem exec_of_firstStop_none {op : Op} {a b : Byte} {s : State} (h : op.firstStop a b s.sp = none) :
    ∃ t, exec (op.build a b) s = .next t ∧ t.status = s.status := by
  obtain ⟨ha, hb, hpush, hpop, hhlt⟩ := Op.firstStop_eq_none h
  cases op with
  | hlt => exact absurd rfl hhlt
  | ldi => exact ⟨_, (Effect.ldi s a b (ha rfl)).exec_eq, rfl⟩
  | prn => exact ⟨_, (Effect.prn s a (ha rfl)).exec_eq, rfl⟩
  | mul => exact ⟨_, (Effect.mul s a b (ha rfl) (hb rfl)).exec_eq, rfl⟩
  | add => exact ⟨_, (Effect.add s a b (ha rfl) (hb rfl)).exec_eq, rfl⟩
  | push => exact ⟨_, (Effect.push s a (ha rfl) (hpush rfl)).exec_eq, rfl⟩
  | pop => exact ⟨_, (Effect.pop s a (ha rfl) (hpop rfl)).exec_eq, rfl⟩
  | ret => exact ⟨_, (Effect.ret s (hpop rfl)).exec_eq, rfl⟩
  | call => exact ⟨_, (Effect.call s a (ha rfl) (hpush rfl)).exec_eq, rfl⟩
  | cmp => exact ⟨_, (Effect.cmp s a b (ha rfl) (hb rfl)).exec_eq, rfl⟩
  | jmp => exact ⟨_, (Effect.jmp s a (ha rfl)).exec_eq, rfl⟩
  | jeq =>
    cases hE : equalSet s.fl
    · exact ⟨_, (Effect.jeqNotTaken s a (ha rfl) hE).exec_eq, rfl⟩
    · exact ⟨_, (Effect.jeqTaken s a (ha rfl) hE).exec_eq, rfl⟩
  | jne =>
    cases hE : equalSet s.fl
    · exact ⟨_, (Effect.jneTaken s a (ha rfl) hE).exec_eq, rfl⟩
    · exact ⟨_, (Effect.jneNotTaken s a (ha rfl) hE).exec_eq, rfl⟩

/-- No instruction drives the ALU with select 3 (R143). -/
theorem Effect.status_ne_aluFault {i : Instr} {s t : State} (h : Effect i s t) (hs : s.status = .running) :
    t.status ≠ .aluFault := by
  obtain ⟨c, rfl, rfl | ⟨_, rfl, -⟩ | ⟨_, rfl⟩⟩ | ⟨hst, -⟩ := h.stops_or_completes
  · simp [StopCause.status]
  · simp [StopCause.status]
  · simp [StopCause.status]
  · simp [hst, hs]

/-! ### The step -/

theorem step_of_code {s : State} {op : Op} (hr : s.status = .running) (hp : s.pc.toNat ≤ 253)
    (hop : op.code = s.mem.read s.pc.toNat) : step s = exec (op.build (latch s).opa (latch s).opb) (latch s) := by
  have hir : (latch s).ir = op.code := hop.symm
  rw [step_inside hr hp, hir, decode_code]

/-- R149 from a pc where the fetch succeeds: the step stops for its opcode byte, stops for the first cause of its
instruction, or completes. -/
theorem step_inside_cases {s : State} (hr : s.status = .running) (hp : s.pc.toNat ≤ 253) :
    (s.mem.read s.pc.toNat ∉ Statements.opcodeBytes ∧ step s = .next (takeStop .badOpcode (latch s).ir (latch s))) ∨
    ∃ op : Op, op.code = s.mem.read s.pc.toNat ∧
      ((∃ c, op.firstStop (latch s).opa (latch s).opb s.sp = some c ∧
          step s = .next (takeStop c (latch s).ir (latch s))) ∨
        (op.firstStop (latch s).opa (latch s).opb s.sp = none ∧ ∃ t, step s = .next t ∧ t.status = .running)) := by
  by_cases hmem : s.mem.read s.pc.toNat ∈ Statements.opcodeBytes
  · obtain ⟨op, hop⟩ := Statements.mem_opcodeBytes_iff.mp hmem
    refine .inr ⟨op, hop, ?_⟩
    rw [step_of_code hr hp hop]
    cases hc : op.firstStop (latch s).opa (latch s).opb s.sp with
    | some c => exact .inl ⟨c, rfl, exec_of_firstStop_some (s := latch s) hc⟩
    | none =>
      obtain ⟨t, ht, hst⟩ := exec_of_firstStop_none (s := latch s) hc
      exact .inr ⟨rfl, t, ht, hst.trans hr⟩
  · exact .inl ⟨hmem, step_of_not_mem_opcodeBytes hr hp hmem⟩

/-- Past 253 the step is an address fault, at the values of pc that no run reaches too. -/
theorem step_outside_status {s : State} (hr : s.status = .running) (hp : 254 ≤ s.pc.toNat) :
    ∃ t, step s = .next t ∧ t.status = .addressFault := by
  obtain ⟨_, _, _, hf, -⟩ := fetch_outside hp
  exact ⟨_, step_of_fetch_stopped hr hf, rfl⟩

theorem step_status_ne_aluFault {s t : State} (h : step s = .next t) : t.status ≠ .aluFault := by
  obtain ⟨hr, ⟨hp, -⟩ | ⟨-, i, -, he⟩ | ⟨-, -, rfl⟩⟩ := step_cases h
  · obtain ⟨u, hu, hst⟩ := step_outside_status hr hp
    cases h.symm.trans hu
    simp [hst]
  · exact (exec_effect (s := latch s) he).status_ne_aluFault hr
  · simp [stopBadOpcode, StopCause.status]

theorem step_ne_next {s : State} (h : s.status ≠ .running) (t : State) : step s ≠ .next t := by
  simp [step_stuck h]

theorem stopped_ne_running {r : RunStatus} (h : r.stopped = true) : r ≠ .running := by rintro rfl; cases h

theorem stopped_ne_ready {r : RunStatus} (h : r.stopped = true) : r ≠ .ready := by rintro rfl; cases h

end Sys2Proof.Machine

namespace Sys2Proof.Statements

open Sys2Proof.Machine

/-! ### The order of R149, read off the opcode byte -/

theorem code_mem_opcodesWithRegisterA (op : Op) : op.code ∈ opcodesWithRegisterA ↔ op.control.aKind = .register := by
  cases op <;> decide

theorem code_mem_opcodesWithRegisterB (op : Op) : op.code ∈ opcodesWithRegisterB ↔ op.control.bKind = .register := by
  cases op <;> decide

theorem code_eq_push_or_call (op : Op) : (op.code = 0x45#8 ∨ op.code = 0x50#8) ↔ op.control.stackOp = .push := by
  cases op <;> decide

theorem code_eq_pop_or_ret (op : Op) : (op.code = 0x46#8 ∨ op.code = 0x11#8) ↔ op.control.stackOp = .pop := by
  cases op <;> decide

theorem code_eq_hlt (op : Op) : op.code = 0x01#8 ↔ op = .hlt := by cases op <;> decide

theorem statusAfterStep_of_code {s : State} {op : Op} (hp : s.pc.toNat ≤ 253) (hop : op.code = s.mem.read s.pc.toNat) :
    statusAfterStep s = (op.firstStop (latch s).opa (latch s).opb s.sp).elim .running StopCause.status := by
  have hfetch : ¬ 254 ≤ s.pc.toNat := by omega
  have hmem : op.code ∈ opcodeBytes := mem_opcodeBytes_iff.mpr ⟨op, rfl⟩
  simp only [statusAfterStep, ← hop, hfetch, hmem, not_true_eq_false, if_false, code_mem_opcodesWithRegisterA,
    code_mem_opcodesWithRegisterB, code_eq_push_or_call, code_eq_pop_or_ret, code_eq_hlt, Op.firstStop, latch]
  split_ifs <;> rfl

end Sys2Proof.Statements

namespace Sys2Proof.Proofs.Exceptions

open Sys2Proof.Machine Sys2Proof.Statements

/-- Settles O15: past 253 by `step_at_end`; elsewhere a step that stops is `takeStop` of one cause in the latched state. -/
theorem stopsArePrecise : Obligations.StopsArePrecise := by
  intro s t hp h ht
  obtain ⟨hr, -⟩ := step_cases h
  refine and_left_comm.mp ⟨step_ne_next ht, ?_⟩
  by_cases hlo : 254 ≤ s.pc.toNat
  · obtain ⟨u, hu, hstatus, hpc, hinfo, hopcode, hsame⟩ := step_at_end hr hlo hp
    cases h.symm.trans hu
    exact ⟨hsame, hpc, hopcode, by rw [hstatus, hinfo]⟩
  · have hopcode : (latch s).ir = if s.pc.toNat = 256 then 0#8 else s.mem.read s.pc.toNat :=
      (if_neg (by omega)).symm
    have hsame (c : StopCause) : sameProgramState s (takeStop c (latch s).ir (latch s)) :=
      ⟨rfl, rfl, rfl, rfl, rfl, rfl⟩
    obtain ⟨-, hstep⟩ | ⟨op, -, ⟨c, hc, hstep⟩ | ⟨-, u, hstep, hst⟩⟩ := step_inside_cases hr (by omega)
    · cases h.symm.trans hstep
      exact ⟨hsame _, rfl, hopcode, rfl⟩
    · cases h.symm.trans hstep
      refine ⟨hsame c, rfl, hopcode, ?_⟩
      obtain rfl | rfl | rfl := Op.firstStop_eq_some hc
      · exact info_registerIndexFault_ite ..
      · rfl
      · rfl
    · cases h.symm.trans hstep
      exact absurd hst ht

/-- Settles O16: `statusAfterStep` is the status of the first stop that `step_inside_cases` finds. -/
theorem stepStatusFollowsPriority : Obligations.StepStatusFollowsPriority := by
  intro s hr
  by_cases hlo : 254 ≤ s.pc.toNat
  · obtain ⟨t, hstep, hst⟩ := step_outside_status hr hlo
    exact ⟨t, hstep, hst.trans (if_pos hlo).symm, by simp [hst]⟩
  · have hp : s.pc.toNat ≤ 253 := by omega
    obtain ⟨hmem, hstep⟩ | ⟨op, hop, ⟨c, hc, hstep⟩ | ⟨hc, t, hstep, hst⟩⟩ := step_inside_cases hr hp
    · exact ⟨_, hstep, ((if_neg hlo).trans (if_pos hmem)).symm, by simp [StopCause.status]⟩
    · refine ⟨_, hstep, by rw [statusAfterStep_of_code hp hop, hc]; rfl, fun hst => ?_⟩
      obtain rfl | rfl | rfl := Op.firstStop_eq_some hc
      · exact info_registerIndexFault_ite ..
      · cases hst
      · cases hst
    · exact ⟨t, hstep, by rw [statusAfterStep_of_code hp hop, hc, hst]; rfl, by simp [hst]⟩

/-- Settles O17: a stopped core is neither RUNNING nor READY, so no step and no start; load and peek keep the rest. -/
theorem onlyResetLeavesAStop : Obligations.OnlyResetLeavesAStop := by
  intro s hs
  have hrun := stopped_ne_running hs
  have hstart : hostAct .start s = (s, .noEffect) := if_neg (stopped_ne_ready hs)
  refine ⟨step_ne_next hrun, fun e he => ?_, hstart, rfl, rfl⟩
  cases e with
  | reset => exact absurd rfl he
  | start => rw [hstart]
  | load addr data => simp only [hostAct, loadPort, if_neg hrun]
  | peek q => rw [hostAct_peek hrun]

/-- Settles O34: `alu_unsupported` for select 3; no row of the control table has it, and no effect ends in ALU_FAULT. -/
theorem aluFaultIsUnreachable : Obligations.AluFaultIsUnreachable := by
  refine ⟨fun s a b ha hb => ?_, fun op => by cases op <;> decide,
    fun _ _ _ hs h => (exec_effect h).status_ne_aluFault hs, fun _ _ => step_status_ne_aluFault⟩
  simp only [aluInstr, regOperand_legal ha, regOperand_legal hb, except_bind_ok, alu_unsupported]
  rfl

end Sys2Proof.Proofs.Exceptions

/-! PROOFS. When a memory write is seen (70_reset_and_hazards.md). -/

namespace Sys2Proof.Machine

/-- R168: what the instruction writes to memory does not reach the latches of its own step. -/
theorem step_latches {s t : State} (h : step s = .next t) (hp : s.pc.toNat ≤ 253) :
    t.ir = (latch s).ir ∧ t.opa = (latch s).opa ∧ t.opb = (latch s).opb := by
  obtain ⟨-, ⟨hlo, -⟩ | ⟨-, i, -, he⟩ | ⟨-, -, rfl⟩⟩ := step_cases h
  · omega
  · exact (exec_effect he).keeps_latches
  · exact ⟨rfl, rfl, rfl⟩

end Sys2Proof.Machine

namespace Sys2Proof.Proofs.ResetAndHazards

open Sys2Proof.Machine

/-- Settles O10: `step_latches` for the current step; by `fetch_inside` a later fetch reads the memory it finds. -/
theorem writesReachTheNextFetch : Obligations.WritesReachTheNextFetch := by
  intro s t h hp
  obtain ⟨hir, hopa, hopb⟩ := step_latches h hp
  refine ⟨hir, hopa, hopb, fun u hmem hu => ⟨latch u, fetch_inside hu, ?_⟩⟩
  rw [← hmem]
  exact ⟨rfl, rfl, rfl⟩

end Sys2Proof.Proofs.ResetAndHazards

/-! PROOFS. Decode and encode agree both ways, and what the opcode byte alone decides (30_encoding.md). -/

namespace Sys2Proof

theorem length_operands (i : Instr) : i.operands.length = i.op.control.length - 1 := by cases i <;> rfl

/-- Building an instruction's opcode with its own operand bytes gives it back, whatever bytes follow (R64, R69). -/
theorem build_operands_append (i : Instr) (rest : List Byte) :
    i.op.build ((i.operands ++ rest).getD 0 0#8) ((i.operands ++ rest).getD 1 0#8) = i := by
  cases i <;> rfl

/-- The bytes a decoded instruction was built from begin with its encoding (R64). -/
theorem encode_build_prefix (op : Op) (a b : Byte) : encode (op.build a b) <+: [op.code, a, b] := by
  cases op <;> exact ⟨_, rfl⟩

theorem decodeBytes_encode_append (i : Instr) (rest : List Byte) :
    decodeBytes (encode i ++ rest) = .ok (i, rest) := by
  have hlen : i.op.control.length ≤ (i.operands ++ rest).length + 1 := by
    rw [List.length_append, length_operands]
    omega
  have hdrop : (i.operands ++ rest).drop (i.op.control.length - 1) = rest :=
    List.drop_left' (length_operands i)
  simp only [encode, List.cons_append, decodeBytes, lookupOp_code, if_pos hlen, build_operands_append, hdrop]

theorem decode_of_encode_prefix {i : Instr} {ir a b : Byte} (h : encode i <+: [ir, a, b]) :
    decode ir a b = .ok i := by
  obtain ⟨rest, hbytes⟩ := h
  obtain ⟨hir, (hoperands : i.operands ++ rest = [a, b])⟩ := List.cons.inj hbytes
  have hbuild := build_operands_append i rest
  rw [hoperands] at hbuild
  rw [← hir, decode_code]
  exact congrArg Except.ok hbuild

/-- An instruction of length 1 takes no operand byte (R68). -/
theorem Op.build_of_length_one {op : Op} (h : op.control.length = 1) (a b a' b' : Byte) :
    op.build a b = op.build a' b' := by
  cases op
  case hlt | ret => rfl
  all_goals cases h

/-- An instruction of length 2 takes the first operand byte alone (R68). -/
theorem Op.build_of_length_two {op : Op} (h : op.control.length = 2) (a b b' : Byte) :
    op.build a b = op.build a b' := by
  cases op
  case prn | push | pop | call | jne | jeq | jmp => rfl
  all_goals cases h

end Sys2Proof

namespace Sys2Proof.Proofs.Encoding

/-- Settles O3: `decodeBytes_encode_append` for byte lists; on three latched bytes, a decoded instruction is built from
them, and an encoding that begins them gives its instruction back. -/
theorem decodeInvertsEncode : Obligations.DecodeInvertsEncode := by
  refine ⟨decodeBytes_encode_append, fun i ir a b => ⟨fun h => ?_, decode_of_encode_prefix⟩⟩
  obtain ⟨op, rfl, rfl⟩ := decode_eq_ok h
  exact encode_build_prefix op a b

/-- Settles O2: each word's first byte is the code of its instruction (`decode_code`); the byte 0 is no row of R70. -/
theorem sampleWordsDecode : Obligations.SampleWordsDecode :=
  ⟨decode_code .hlt _ _, decode_code .ldi _ _, decode_code .prn _ _, decode_code .add _ _, decode_code .mul _ _,
    decode_code .cmp _ _, decode_code .push _ _, decode_code .pop _ _, decode_code .ret _ _, decode_code .call _ _,
    decode_code .jne _ _, decode_code .jeq _ _, decode_code .jmp _ _, rfl⟩

/-- Settles O5: the three bit fields of each of the 13 opcodes against its control word. -/
theorem opcodeBitsShowLengthAndKind : Obligations.OpcodeBitsShowLengthAndKind := by
  intro op
  cases op <;> decide

/-- Settles O6: the decoder builds the instruction from as many operand bytes as its length says. -/
theorem unusedBytesDoNotMatter : Obligations.UnusedBytesDoNotMatter := by
  rintro ir a b a' b' op rfl
  simp only [decode_code]
  exact ⟨fun h => congrArg Except.ok (op.build_of_length_one h a b a' b'),
    fun h => congrArg Except.ok (op.build_of_length_two h a b b')⟩

end Sys2Proof.Proofs.Encoding

/-! PROOFS. Hidden flags over whole runs (10_state.md). -/

namespace Sys2Proof.Machine

theorem run_succ_of_next {s t : State} (h : step s = .next t) (n : Nat) : core.run (n + 1) s = core.run n t := by
  simp only [Host.Core.run, Host.Check.core_step, h]

theorem run_succ_of_stuck {s : State} (h : s.status ≠ .running) (n : Nat) :
    core.run (n + 1) s = .fault (stuckReason s.status) := by
  simp only [Host.Core.run, Host.Check.core_step, step_stuck h]

end Sys2Proof.Machine

namespace Sys2Proof.Proofs.StateRules

open Sys2Proof.Machine Sys2Proof.Statements

/-- Settles O37, by induction on the number of steps: related states are RUNNING together, and `step_sameOutcomes` keeps
the relation. -/
theorem hiddenFlagsNeverObservable : Obligations.HiddenFlagsNeverObservable := by
  intro s t h n
  induction n generalizing s t with
  | zero => exact h
  | succ n ih =>
    have hstep := step_sameOutcomes h
    obtain ⟨f, rfl, -⟩ := h.eq_setFl
    by_cases hr : s.status = .running
    · obtain ⟨s', hs⟩ := step_answers_next hr
      obtain ⟨t', ht⟩ := step_answers_next (s := s.setFl f) hr
      rw [hs, ht] at hstep
      rw [run_succ_of_next hs, run_succ_of_next ht]
      exact ih s' t' hstep
    · rw [run_succ_of_stuck hr, run_succ_of_stuck (s := s.setFl f) hr]
      rfl

end Sys2Proof.Proofs.StateRules

/-! PROOFS. What one instruction leaves unchanged, by its control word (40_control_unit.md, R88). -/

namespace Sys2Proof

/-- Only an instruction with a register in field a writes one (R88). -/
theorem Op.aKind_of_writesReg {op : Op} (h : op.control.writesReg = true) : op.control.aKind = .register := by
  cases op
  case ldi | mul | add | pop => rfl
  all_goals cases h

/-- PUSH and CALL are the instructions that push (R88). -/
theorem Instr.push_or_call {i : Instr} (h : i.op.control.stackOp = .push) : ∃ a, i = .push a ∨ i = .call a := by
  cases i
  case push a => exact ⟨a, .inl rfl⟩
  case call a => exact ⟨a, .inr rfl⟩
  all_goals cases h

end Sys2Proof

namespace Sys2Proof.Machine

open Sys2Proof.Statements

/-- A register is written only as x[a], where the control word writes a register, or as SP, where it uses the stack. -/
theorem Effect.reg_frame {i : Instr} {s t : State} (h : Effect i s t) {r : RegIndex}
    (ha : i.op.control.writesReg = true → ∀ a, i.operands.head? = some a → r.val ≠ a.toNat)
    (hsp : i.op.control.stackOp ≠ .none → r.val ≠ 7) : t.reg r = s.reg r := by
  have hne {a : Byte} (h8 : a.toNat < 8) (hr : r.val ≠ a.toNat) : (⟨a.toNat, h8⟩ : RegIndex) ≠ r :=
    fun heq => hr (congrArg Fin.val heq.symm)
  have hsp' (hr : r.val ≠ 7) : Config.spIndex ≠ r := fun heq => hr (congrArg Fin.val heq.symm)
  cases h with
  | ldi _ a b h8 | mul _ a b h8 | add _ a b h8 => exact reg_setReg_other _ _ _ _ (hne h8 (ha rfl a rfl))
  | push | call => exact reg_setReg_other s _ _ _ (hsp' (hsp nofun))
  | pop _ a h8 =>
    exact (reg_setReg_other _ _ _ _ (hne h8 (ha rfl a rfl))).trans
      (reg_setReg_other _ _ _ _ (hsp' (hsp nofun)))
  | ret => exact reg_setReg_other _ _ _ _ (hsp' (hsp nofun))
  | _ => rfl

/-- FL is written only where the control word says so. -/
theorem Effect.fl_frame {i : Instr} {s t : State} (h : Effect i s t) (hfl : i.op.control.writesFl = false) :
    t.fl = s.fl := by
  refine exec_keeps_fl (fun a b hi => ?_) h.exec_eq
  subst hi
  cases hfl

/-- The output is written only where the control word emits. -/
theorem Effect.out_frame {i : Instr} {s t : State} (h : Effect i s t) (hout : i.op.control.emits = false) :
    t.out = s.out := by
  obtain ho | ⟨a, -, rfl, -⟩ := h.out_cases
  · exact ho
  · cases hout

/-- Memory is written only by a push with room for it, and only at its own address (R121). -/
theorem Effect.mem_cases {i : Instr} {s t : State} (h : Effect i s t) :
    t.mem = s.mem ∨
      (i.op.control.stackOp = .push ∧ s.sp ≠ 0#8 ∧ ∃ v, t.mem = s.mem.write (pushAddress s) v) := by
  cases h with
  | push _ _ _ h0 | call _ _ _ h0 => exact .inr ⟨rfl, h0, _, rfl⟩
  | _ => exact .inl rfl

theorem Effect.read_frame {i : Instr} {s t : State} (h : Effect i s t) {addr : Nat}
    (haddr : i.op.control.stackOp = .push → s.sp ≠ 0#8 → addr ≠ pushAddress s) :
    t.mem.read addr = s.mem.read addr := by
  obtain hm | ⟨hpush, h0, v, hm⟩ := h.mem_cases
  · rw [hm]
  · rw [hm, Memory.read_write_other _ _ _ _ (haddr hpush h0)]

/-- A well-formed instruction other than HLT that has room on the stack where it needs it completes: status, stop registers
and latches stay. -/
theorem Effect.control_frame {i : Instr} {s t : State} (h : Effect i s t) (hwf : i.wf = true) (hhlt : i.op ≠ .hlt)
    (hpush : i.op.control.stackOp = .push → s.sp ≠ 0#8) (hpop : i.op.control.stackOp = .pop → s.sp ≠ 255#8) :
    sameControlState s t := by
  cases h with
  | badA _ _ a hop h8 hk => simp [Instr.wf_eq_false_of_illegal_a hop h8 hk] at hwf
  | badB _ _ a b hop _ h8 hk => simp [Instr.wf_eq_false_of_illegal_b hop h8 hk] at hwf
  | hlt => exact absurd rfl hhlt
  | pushFull _ _ _ h0 | callFull _ _ _ h0 => exact absurd h0 (hpush rfl)
  | popEnd _ _ _ h0 | retEnd _ h0 => exact absurd h0 (hpop rfl)
  | _ => exact ⟨rfl, rfl, rfl, rfl, rfl, rfl, rfl, rfl⟩

/-- With no room on the stack, an instruction that uses it stops (R121, R122). -/
theorem Effect.stops_without_room {i : Instr} {s t : State} (h : Effect i s t)
    (hroom : (i.op.control.stackOp = .push ∧ s.sp = 0#8) ∨ (i.op.control.stackOp = .pop ∧ s.sp = 255#8)) :
    ∃ c, t = takeStop c s.ir s := by
  obtain ⟨hk, h0⟩ | ⟨hk, h0⟩ := hroom
  · cases h with
    | push _ _ _ hne | call _ _ _ hne => exact absurd h0 hne
    | badA | badB | pushFull | callFull => exact ⟨_, rfl⟩
    | _ => cases hk
  · cases h with
    | pop _ _ _ hne | ret _ hne => exact absurd h0 hne
    | badA | badB | popEnd | retEnd => exact ⟨_, rfl⟩
    | _ => cases hk

end Sys2Proof.Machine

namespace Sys2Proof.Proofs.ControlUnit

open Sys2Proof.Machine Sys2Proof.Statements

/-- Settles O39: the contraposition of each frame lemma, at the opcode of the built instruction. -/
theorem controlWordBoundsEffects : Obligations.ControlWordBoundsEffects := by
  intro op a b s t h
  have he := exec_effect h
  have hop := op_build op a b
  refine ⟨fun r hr => ?_, fun hfl => ?_, fun hout => ?_, fun hmem => ?_⟩
  · by_contra hnot
    obtain ⟨hreg, hstack⟩ := not_or.mp hnot
    refine hr (he.reg_frame (fun hw a' ha' hra => ?_) (fun hk hr7 => ?_))
    · rw [hop] at hw
      rw [op.head?_operands_build (Op.aKind_of_writesReg hw) a b] at ha'
      cases ha'
      exact hreg ⟨hw, hra⟩
    · rw [hop] at hk
      exact hstack ⟨hk, hr7⟩
  · by_contra hw
    exact hfl (he.fl_frame (by rw [hop]; exact Bool.eq_false_iff.mpr hw))
  · by_contra hw
    exact hout (he.out_frame (by rw [hop]; exact Bool.eq_false_iff.mpr hw))
  · obtain hm | ⟨hpush, -⟩ := he.mem_cases
    · exact absurd hm hmem
    · rwa [hop] at hpush

/-- Settles O9: `Effect.mem_cases`, and a write leaves every other address alone. -/
theorem onlyPushAndCallWriteMemory : Obligations.OnlyPushAndCallWriteMemory := by
  intro i s t addr h hne
  obtain hm | ⟨hpush, h0, v, hm⟩ := (exec_effect h).mem_cases
  · exact absurd (by rw [hm]) hne
  · refine ⟨Instr.push_or_call hpush, h0, ?_⟩
    by_contra haddr
    exact hne (by rw [hm, Memory.read_write_other _ _ _ _ haddr])

/-- Settles O40: LDI, ADD and MUL write x[a] alone and do not use the stack. -/
theorem registerLoadFrame : Obligations.RegisterLoadFrame := by
  intro a b i s t hi hwf h
  have he := exec_effect h
  obtain rfl | rfl | rfl := hi
  all_goals
    refine ⟨fun r hr => he.reg_frame (fun _ a' ha' => ?_) nofun, he.fl_frame rfl, fun addr => he.read_frame nofun,
      he.out_frame rfl, he.control_frame hwf nofun nofun nofun⟩
    cases ha'
    exact hr

/-- Settles O41: PRN, CMP and the jumps write no register and do not use the stack. -/
theorem noRegisterWriteFrame : Obligations.NoRegisterWriteFrame := by
  intro a b i s t hi hwf h
  have he := exec_effect h
  obtain ⟨hreg, hstack, hhlt⟩ : i.op.control.writesReg = false ∧ i.op.control.stackOp = .none ∧ i.op ≠ .hlt := by
    obtain rfl | rfl | rfl | rfl | rfl := hi <;> exact ⟨rfl, rfl, nofun⟩
  refine ⟨fun r => he.reg_frame (by simp [hreg]) (by simp [hstack]), fun addr => he.read_frame (by simp [hstack]),
    he.control_frame hwf hhlt (by simp [hstack]) (by simp [hstack]), fun hcmp => he.fl_frame ?_,
    fun hprn => he.out_frame ?_⟩
  · obtain rfl | rfl | rfl | rfl | rfl := hi
    case inr.inl => exact absurd rfl hcmp
    all_goals rfl
  · obtain rfl | rfl | rfl | rfl | rfl := hi
    case inl => exact absurd rfl hprn
    all_goals rfl

/-- Settles O42: PUSH and CALL write SP and the cell of `pushAddress`; at SP = 0 they stop. -/
theorem stackStoreFrame : Obligations.StackStoreFrame := by
  intro a i s t hi hwf h
  have he := exec_effect h
  have hregs (h0 : s.sp = 0#8) (hk : i.op.control.stackOp = .push) : t.regs = s.regs := by
    obtain ⟨c, rfl⟩ := he.stops_without_room (.inl ⟨hk, h0⟩)
    rfl
  obtain rfl | rfl := hi
  all_goals
    exact ⟨fun r hr => he.reg_frame nofun (fun _ => hr), he.fl_frame rfl, he.out_frame rfl,
      fun addr haddr => he.read_frame (fun _ _ => haddr),
      fun h0 => ⟨hregs h0 rfl, fun addr => he.read_frame (fun _ hne => absurd h0 hne)⟩,
      fun h0 => he.control_frame hwf nofun (fun _ => h0) nofun⟩

/-- Settles O43: POP and RET write SP, and POP x[a]; they store nothing, and at SP = 255 they stop. -/
theorem stackLoadFrame : Obligations.StackLoadFrame := by
  intro a i s t hi hwf h
  have he := exec_effect h
  have hregs (h0 : s.sp = 255#8) (hk : i.op.control.stackOp = .pop) : t.regs = s.regs := by
    obtain ⟨c, rfl⟩ := he.stops_without_room (.inr ⟨hk, h0⟩)
    rfl
  obtain rfl | rfl := hi
  · refine ⟨fun r hr hra => he.reg_frame (fun _ a' ha' => ?_) (fun _ => hr), he.fl_frame rfl, he.out_frame rfl,
      fun addr => he.read_frame nofun, fun h0 => hregs h0 rfl, fun h0 => he.control_frame hwf nofun nofun (fun _ => h0)⟩
    cases ha'
    exact hra rfl
  · exact ⟨fun r hr _ => he.reg_frame nofun (fun _ => hr), he.fl_frame rfl, he.out_frame rfl,
      fun addr => he.read_frame nofun, fun h0 => hregs h0 rfl, fun h0 => he.control_frame hwf nofun nofun (fun _ => h0)⟩

end Sys2Proof.Proofs.ControlUnit

/-! PROOFS. The invariant of the core (10_state.md, 60_exceptions.md, 70_reset_and_hazards.md). -/

namespace Sys2Proof.Machine

/-! ### What an instruction does to each part of the invariant -/

theorem Effect.mem_wf {i : Instr} {s t : State} (h : Effect i s t) (hm : s.mem.wf = true) : t.mem.wf = true := by
  obtain heq | ⟨-, -, v, heq⟩ := h.mem_cases
  · rw [heq]
    exact hm
  · rw [heq]
    exact Memory.wf_write _ _ _ hm (by have := s.sp.isLt; unfold pushAddress; omega)

theorem toPc_toNat_le (v : Byte) : (toPc v).toNat ≤ 256 := by
  rw [toPc_toNat]
  have := v.isLt
  omega

/-- From a pc where a fetch succeeds, an instruction leaves pc at most 256 (R91). -/
theorem Effect.pc_le {i : Instr} {s t : State} (h : Effect i s t) (hp : s.pc.toNat ≤ 253) : t.pc.toNat ≤ 256 := by
  have hseq {n : Nat} (hn : n ≤ 3) : (s.pc + BitVec.ofNat 9 n).toNat ≤ 256 := by
    rw [BitVec.toNat_add, BitVec.toNat_ofNat]
    omega
  have hstay : s.pc.toNat ≤ 256 := by omega
  cases h with
  | badA | badB | hlt | pushFull | popEnd | retEnd | callFull => exact hstay
  | ldi | mul | add | cmp => exact hseq (n := 3) (by decide)
  | prn | push | pop | jeqNotTaken | jneNotTaken => exact hseq (n := 2) (by decide)
  | ret | call | jmp | jeqTaken | jneTaken => exact toPc_toNat_le _

/-- Only CMP writes FL, with a pattern of R26. -/
theorem Effect.flLegal {i : Instr} {s t : State} (h : Effect i s t) (hfl : s.flLegal) : t.flLegal := by
  cases h
  case cmp a b ha hb =>
    obtain ⟨-, hv⟩ | ⟨-, hv⟩ | ⟨-, hv⟩ :=
      cmpFlags_cases s.params.lessSharesEqual (s.reg ⟨a.toNat, ha⟩) (s.reg ⟨b.toNat, hb⟩)
    · exact .inr (.inl hv)
    · exact .inr (.inr (.inl hv))
    · by_cases hshare : s.params.lessSharesEqual = true
      · exact .inr (.inl (hv.trans (if_pos hshare)))
      · exact .inr (.inr (.inr ⟨hv.trans (if_neg hshare), Bool.eq_false_iff.mpr hshare⟩))
  all_goals exact hfl

theorem stopReportLegal_of_running {s : State} (hr : s.status = .running) :
    s.stopReportLegal ↔ s.stopPc = 0#9 ∧ s.stopOpcode = 0#8 ∧ s.stopInfo = 0#9 := by
  simp only [State.stopReportLegal, hr]

/-- What the stop on an illegal register field reports (R90). -/
theorem takeStop_registerIndexFault_report {s : State} {op : Op} {byte : Byte} (hir : s.ir = op.code)
    (hk : op.control.aKind = .register) (h8 : 8 ≤ byte.toNat) :
    (takeStop (.registerIndexFault byte) s.ir s).stopReportLegal := by
  have hinfo : (byte.setWidth 9).toNat = byte.toNat := toPc_toNat byte
  refine ⟨rfl, ⟨op, hir, hk⟩, ?_, ?_⟩
  · exact h8.trans_eq hinfo.symm
  · have := byte.isLt
    exact hinfo.trans_le (by omega)

/-- An instruction that its own opcode byte has selected reports its stop as R141 says. -/
theorem Effect.stopReport {i : Instr} {s t : State} (h : Effect i s t) (hir : s.ir = i.op.code)
    (hr : s.status = .running) (hs : s.stopReportLegal) : t.stopReportLegal := by
  have hcleared := (stopReportLegal_of_running hr).mp hs
  cases h with
  | badA _ _ a _ h8 hk => exact takeStop_registerIndexFault_report hir hk h8
  | badB _ _ _ b _ _ h8 hk => exact takeStop_registerIndexFault_report hir (Op.aKind_of_bKind hk) h8
  | hlt => exact ⟨rfl, hir, rfl⟩
  | pushFull _ _ _ h0 => exact ⟨rfl, .inl ⟨.inl hir, h0, rfl⟩⟩
  | callFull _ _ _ h0 => exact ⟨rfl, .inl ⟨.inr hir, h0, rfl⟩⟩
  | popEnd _ _ _ h0 => exact ⟨rfl, .inr ⟨.inl hir, h0, rfl⟩⟩
  | retEnd _ h0 => exact ⟨rfl, .inr ⟨.inr hir, h0, rfl⟩⟩
  | _ => exact (stopReportLegal_of_running (by exact hr)).mpr hcleared

/-! ### The invariant, event by event -/

theorem Inv.latch {s : State} (h : Inv s) : Inv (latch s) := ⟨h.memWf, h.pcRange, h.flLegal, h.stopReport⟩

theorem Inv.effect {i : Instr} {s t : State} (h : Inv s) (he : Effect i s t) (hir : s.ir = i.op.code)
    (hr : s.status = .running) (hp : s.pc.toNat ≤ 253) : Inv t :=
  ⟨he.mem_wf h.memWf, he.pc_le hp, he.flLegal h.flLegal, he.stopReport hir hr h.stopReport⟩

/-- A stop keeps everything the invariant speaks of but its report. -/
theorem Inv.takeStop {s : State} {c : StopCause} {op : Byte} (h : Inv s)
    (hreport : (takeStop c op s).stopReportLegal) : Inv (takeStop c op s) :=
  ⟨h.memWf, h.pcRange, h.flLegal, hreport⟩

theorem Inv.step {s t : State} (h : Inv s) (hstep : step s = .next t) : Inv t := by
  obtain ⟨hr, ⟨hp, hf⟩ | ⟨hp, i, hd, he⟩ | ⟨-, ⟨r, hd⟩, rfl⟩⟩ := step_cases hstep
  · obtain ⟨addr, op, u, hf', -, haddr, -, ir, opa, rfl⟩ := fetch_outside hp
    cases hf'.symm.trans hf
    obtain rfl := haddr h.pcRange
    exact ⟨h.memWf, h.pcRange, h.flLegal, rfl, hp, rfl⟩
  · obtain ⟨op, hir, rfl⟩ := decode_eq_ok hd
    exact h.latch.effect (exec_effect he) (by rw [op_build, hir]) hr hp
  · obtain ⟨hne, -⟩ := decode_error hd
    exact h.latch.takeStop ⟨rfl, hne, rfl⟩

theorem Inv.of_resetAction {s : State} (hm : s.mem.wf = true) : Inv (resetAction s) :=
  ⟨hm, Nat.zero_le _, .inl rfl, rfl, rfl, rfl⟩

theorem Inv.hostAct {s : State} (h : Inv s) (e : HostEvent) : Inv (hostAct e s).1 := by
  cases e with
  | reset => exact .of_resetAction h.memWf
  | start =>
    by_cases hready : s.status = .ready
    · have hreport := h.stopReport
      simp only [State.stopReportLegal, hready] at hreport
      simp only [Machine.hostAct, startPort, if_pos hready]
      exact ⟨h.memWf, h.pcRange, h.flLegal, hreport⟩
    · simp only [Machine.hostAct, startPort, if_neg hready]
      exact h
  | load addr data =>
    have hwf := loadPort_keeps_wf addr data s h.memWf
    by_cases hr : s.status = .running
    · simp only [Machine.hostAct, loadPort, if_pos hr]
      exact h
    · simp only [loadPort, if_neg hr] at hwf
      simp only [Machine.hostAct, loadPort, if_neg hr]
      exact ⟨hwf, h.pcRange, h.flLegal, h.stopReport⟩
  | peek q =>
    have hsame : (Machine.hostAct (.peek q) s).1 = s := by
      simp only [Machine.hostAct, peekPort]
      split <;> rfl
    rwa [hsame]

theorem Reachable.inv {s : State} (h : Reachable s) : Inv s := by
  induction h with
  | reset s hm => exact .of_resetAction hm
  | step s t _ hstep ih => exact ih.step hstep
  | host s e _ ih => exact ih.hostAct e

end Sys2Proof.Machine

namespace Sys2Proof.Proofs.Invariant

open Sys2Proof.Machine

/-- Settles O55: the fetch's stop, the unrecognised opcode's, and each instruction keep the four parts (`Inv.step`). -/
theorem stepKeepsInvariant : Obligations.StepKeepsInvariant := fun _ _ h hstep => h.step hstep

/-- Settles O56: reset clears the report, start finds READY's, load writes inside memory, peek changes nothing. -/
theorem hostEventsKeepInvariant : Obligations.HostEventsKeepInvariant := fun _ e h => h.hostAct e

/-- Settles O57: by induction on how the state was reached. -/
theorem reachableStatesMeetInvariant : Obligations.ReachableStatesMeetInvariant := fun _ h => h.inv

/-- Settles O54: `State.reset` is what the reset action leaves in itself. -/
theorem resetMeetsInvariant : Obligations.ResetMeetsInvariant := by
  have h := Inv.of_resetAction reset_mem_wf
  rwa [resetAction_eq_reset State.reset rfl rfl] at h

end Sys2Proof.Proofs.Invariant

/-! PROOFS. When a step is enabled, what it runs, and a program that never ends (40_control_unit.md). -/

namespace Sys2Proof.Machine

/-- A decoded instruction runs in the state with its latches loaded, and `step` adds nothing to it (R85). -/
theorem step_of_decode {s : State} {i : Instr} (hr : s.status = .running) (hp : s.pc.toNat ≤ 253)
    (hd : decode (s.mem.read s.pc.toNat) (s.mem.read (s.pc.toNat + 1)) (s.mem.read (s.pc.toNat + 2)) = .ok i) :
    step s = exec i (latch s) := by
  have hlatched : decode (latch s).ir (latch s).opa (latch s).opb = .ok i := hd
  rw [step_inside hr hp, hlatched]

/-- A core that is neither READY nor RUNNING is in a stopped state (R28). -/
theorem stuckReason_of_stopped {r : RunStatus} (hready : r ≠ .ready) (hrun : r ≠ .running) :
    stuckReason r = .coreStopped := by
  cases r
  case ready => exact absurd rfl hready
  case running => exact absurd rfl hrun
  all_goals rfl

/-! ### A table word at the fetch slot -/

theorem fetchableSlot_le (s : State) : (fetchableSlot s).toNat ≤ 253 := by
  unfold fetchableSlot
  split
  · assumption
  · decide

/-- The three bytes of a placed word are the word's bytes. -/
theorem read_writeTableWord (m : Memory) (addr nbits w : Nat) :
    (writeTableWord m addr nbits w).read addr = tableByte nbits w 0 ∧
      (writeTableWord m addr nbits w).read (addr + 1) = tableByte nbits w 1 ∧
      (writeTableWord m addr nbits w).read (addr + 2) = tableByte nbits w 2 := by
  unfold writeTableWord
  refine ⟨?_, ?_, Memory.read_write_same ..⟩
  · rw [Memory.read_write_other _ _ _ _ (by omega), Memory.read_write_other _ _ _ _ (by omega), Memory.read_write_same]
  · rw [Memory.read_write_other _ _ _ _ (by omega), Memory.read_write_same]

theorem decodeTableWord_eq_some {nbits w : Nat} {i : Instr} (h : decodeTableWord nbits w = some i) :
    decode (tableByte nbits w 0) (tableByte nbits w 1) (tableByte nbits w 2) = .ok i := by
  unfold decodeTableWord at h
  split at h
  · next hd => cases h; exact hd
  · cases h

/-! ### A jump to its own address -/

theorem run_of_fixed {s : State} (h : step s = .next s) (n : Nat) : core.run n s = .next s := by
  induction n with
  | zero => rfl
  | succ n ih => rw [run_succ_of_next h, ih]

/-- A JMP whose register holds the pc it stands at only loads the latches (R96). -/
theorem step_jump_to_self {s : State} {a : Byte} (ha : a.toNat < 8) (hr : s.status = .running) (hp : s.pc.toNat ≤ 253)
    (hop : s.mem.read s.pc.toNat = 0x54#8) (harg : s.mem.read (s.pc.toNat + 1) = a)
    (htarget : (s.reg ⟨a.toNat, ha⟩).toNat = s.pc.toNat) : step s = .next (latch s) := by
  have hpc : toPc ((latch s).reg ⟨a.toNat, ha⟩) = s.pc :=
    BitVec.eq_of_toNat_eq ((toPc_toNat _).trans htarget)
  have hd : decode (s.mem.read s.pc.toNat) (s.mem.read (s.pc.toNat + 1)) (s.mem.read (s.pc.toNat + 2)) = .ok (.jmp a) := by
    rw [hop, harg]
    exact decode_code .jmp a _
  rw [step_of_decode hr hp hd, (Effect.jmp (latch s) a ha).exec_eq, hpc]
  rfl

end Sys2Proof.Machine

namespace Sys2Proof.Proofs.ControlUnit

open Sys2Proof.Machine Sys2Proof.Statements

/-- Settles O1: the fetch succeeds at most at 253, and its latches hold the decoded bytes (`step_of_decode`). -/
theorem stepRunsDecodedInstruction : Obligations.StepRunsDecodedInstruction := fun _ _ => step_of_decode

/-- Settles O13: a RUNNING core answers, and any other is stuck for the reason its status gives. -/
theorem stepEnabledExactlyWhileRunning : Obligations.StepEnabledExactlyWhileRunning := by
  intro s
  refine ⟨⟨step_answers_next, fun ⟨_, h⟩ => (step_cases h).1⟩, fun hready => ?_, fun hready hrun => ?_⟩
  · rw [step_stuck (by simp [hready]), hready]
    rfl
  · rw [step_stuck hrun, stuckReason_of_stopped hready hrun]

/-- Settles O7: the placed bytes are read back at the slot, where a fetch succeeds. -/
theorem placedWordRunsNext : Obligations.PlacedWordRunsNext := by
  intro s nbits w i h
  refine ⟨step_of_decode rfl (fetchableSlot_le s) ?_, rfl, rfl, fun hp => if_pos hp⟩
  obtain ⟨h0, h1, h2⟩ := read_writeTableWord s.mem (fetchableSlot s).toNat nbits w
  simp only [State.withFetchWord, placeTableWord, h0, h1, h2]
  exact decodeTableWord_eq_some h

/-- Settles O18: the first step leaves the latched state, which every further step leaves as it is. -/
theorem jumpToSelfRunsForever : Obligations.JumpToSelfRunsForever := by
  intro s a ha hr hp hop harg htarget n
  have hfirst := step_jump_to_self ha hr hp hop harg htarget
  have hfixed : step (latch s) = .next (latch s) := step_jump_to_self (s := latch s) ha hr hp hop harg htarget
  cases n with
  | zero => exact ⟨s, rfl, hr, rfl, rfl, rfl, rfl, rfl, rfl⟩
  | succ n => exact ⟨latch s, by rw [run_succ_of_next hfirst, run_of_fixed hfixed], hr, rfl, rfl, rfl, rfl, rfl, rfl⟩

end Sys2Proof.Proofs.ControlUnit

/-! PROOFS. The flag pattern of CMP and the conditional jumps that follow it (42_alu.md, 44_control_transfer.md). -/

namespace Sys2Proof.Machine

/-- CMP reports Equal for equal registers and, where FL_LESS_SHARES_EQUAL is set, for Less (R115; D10). -/
theorem equalSet_cmpFlags (share : Bool) (u v : Byte) :
    equalSet (cmpFlags share u v) = true ↔ u.toNat = v.toNat ∨ (share = true ∧ u.toNat < v.toNat) := by
  obtain ⟨h, hv⟩ | ⟨h, hv⟩ | ⟨h, hv⟩ := cmpFlags_cases share u v
  · rw [hv]
    exact iff_of_true rfl (.inl h)
  · rw [hv]
    exact iff_of_false nofun (by omega)
  · rw [hv]
    cases share
    · exact iff_of_false nofun (by simp; omega)
    · exact iff_of_true rfl (.inr ⟨rfl, h⟩)

end Sys2Proof.Machine

namespace Sys2Proof.Proofs.Alu

open Sys2Proof.Machine Sys2Proof.Statements

/-- Settles O33: each relation picks one branch of `cmpFlags`. -/
theorem compareFlagPattern : Obligations.CompareFlagPattern := by
  intro u v
  refine ⟨fun h share => ?_, fun h share => ?_, fun h => ?_⟩
  · exact if_pos h
  · exact (if_neg (by omega)).trans (if_pos h)
  · exact ⟨(if_neg (by omega)).trans (if_neg (by omega)), (if_neg (by omega)).trans (if_neg (by omega))⟩

/-- Settles O35: after CMP the Equal bit is `equalReported` (`equalSet_cmpFlags`), and JEQ and JNE go by that bit. -/
theorem compareThenConditionalJump : Obligations.CompareThenConditionalJump := by
  intro s t a b c ha hb hc h equalReported target
  have hfl : t.fl = cmpFlags s.params.lessSharesEqual (s.reg ⟨a.toNat, ha⟩) (s.reg ⟨b.toNat, hb⟩) := by
    cases (Effect.cmp s a b ha hb).exec_eq.symm.trans h
    rfl
  have hE : equalSet t.fl = true ↔ equalReported := by rw [hfl]; exact equalSet_cmpFlags ..
  have htarget : target = BitVec.ofNat 9 (t.reg ⟨c.toNat, hc⟩).toNat := by
    rw [(exec_effect h).reg_frame nofun nofun]
  rw [htarget]
  refine ⟨fun heq => ?_, fun hne => ?_⟩
  · have hset : equalSet t.fl = true := hE.mpr heq
    exact ⟨(Effect.jeqTaken t c hc hset).exec_eq_jump, (Effect.jneNotTaken t c hc hset).exec_eq⟩
  · have hclear : equalSet t.fl = false := Bool.eq_false_iff.mpr (mt hE.mp hne)
    exact ⟨(Effect.jeqNotTaken t c hc hclear).exec_eq, (Effect.jneTaken t c hc hclear).exec_eq_jump⟩

end Sys2Proof.Proofs.Alu

/-! PROOFS. Pushes followed by pops, and many pushes (43_stack.md, 44_control_transfer.md). -/

namespace Sys2Proof.Machine

theorem sp_pushed (s : State) (v : Byte) : (pushed s v).sp = s.sp - 1#8 :=
  (reg_pushed s v _).trans (if_pos rfl)

theorem toNat_sp_pushed {s : State} (v : Byte) (h0 : s.sp ≠ 0#8) : (pushed s v).sp.toNat = pushAddress s := by
  rw [sp_pushed, toNat_sp_sub_one h0]

/-- After a push there is room for a pop. -/
theorem sp_pushed_ne {s : State} (v : Byte) (h0 : s.sp ≠ 0#8) : (pushed s v).sp ≠ 255#8 := by
  rw [sp_pushed]
  bv_omega

theorem read_pushed_same (s : State) (v : Byte) : (pushed s v).mem.read (pushAddress s) = v :=
  Memory.read_write_same ..

theorem read_pushed_other {s : State} (v : Byte) {addr : Nat} (h : addr ≠ pushAddress s) :
    (pushed s v).mem.read addr = s.mem.read addr :=
  Memory.read_write_other _ _ _ _ h

theorem topByte_pushed {s : State} (v : Byte) (h0 : s.sp ≠ 0#8) : topByte (pushed s v) = v := by
  rw [topByte, popAddress, toNat_sp_pushed v h0, read_pushed_same]

theorem sp_popped (s : State) : (popped s).sp = s.sp + 1#8 := reg_setReg_same s _ _

/-- A pop puts SP back where the push found it. -/
theorem regs_popped_pushed (s : State) (v : Byte) : (popped (pushed s v)).regs = s.regs := by
  calc (popped (pushed s v)).regs
      = (s.regs.set 7 (s.sp - 1#8)).set 7 s.sp := by
        rw [popped, setReg_regs, sp_pushed, BitVec.sub_add_cancel]
        rfl
    _ = s.regs.set 7 s.sp := Vector.set_set ..
    _ = s.regs := Vector.set_getElem_self _

/-! ### Many pushes -/

/-- What n pushes of a register leave: SP lower by n, the status and every cell outside the n below SP kept, and, for a
register other than SP, those n cells filled with it. -/
structure PushedTimes (r : RegIndex) (n : Nat) (s t : State) : Prop where
  sp : t.sp.toNat = s.sp.toNat - n
  status : t.status = s.status
  filled : r.val ≠ 7 → ∀ k, k < n → t.mem.read (s.sp.toNat - 1 - k) = s.reg r
  kept : ∀ addr, (addr < s.sp.toNat - n ∨ s.sp.toNat ≤ addr) → t.mem.read addr = s.mem.read addr

theorem PushedTimes.zero (r : RegIndex) (s : State) : PushedTimes r 0 s s :=
  ⟨rfl, rfl, fun _ _ hk => absurd hk (Nat.not_lt_zero _), fun _ _ => rfl⟩

/-- One push before n others: the cell it fills lies above theirs. -/
theorem PushedTimes.succ {r : RegIndex} {n : Nat} {s t : State} (h0 : s.sp ≠ 0#8)
    (h : PushedTimes r n ((pushed s (s.reg r)).advance 2) t) : PushedTimes r (n + 1) s t := by
  have hpos : 0 < s.sp.toNat := by bv_omega
  obtain ⟨hsp, hstatus, hfilled, hkept⟩ := h
  simp only [sp_advance, toNat_sp_pushed _ h0, pushAddress, advance_mem, reg_advance] at hsp hfilled hkept
  refine ⟨by omega, hstatus, fun hr k hk => ?_, fun addr haddr => ?_⟩
  · cases k with
    | zero =>
      rw [hkept _ (by omega)]
      exact read_pushed_same s _
    | succ k =>
      have hreg : (pushed s (s.reg r)).reg r = s.reg r :=
        (reg_pushed s _ r).trans (if_neg fun h => hr (congrArg Fin.val h.symm))
      rw [← hreg, ← hfilled hr k (by omega)]
      congr 1
      omega
  · rw [hkept _ (by omega), read_pushed_other _ (by unfold pushAddress; omega)]

end Sys2Proof.Machine

namespace Sys2Proof.Statements

open Sys2Proof.Machine

theorem pushTimes_succ {a : Byte} {s t : State} (h : exec (.push a) s = .next t) (n : Nat) :
    pushTimes a (n + 1) s = pushTimes a n t := by
  rw [pushTimes, h]

/-- The last push of n + 1 runs in the state the first n left. -/
theorem pushTimes_succ_last {a : Byte} {n : Nat} {s t : State} (h : pushTimes a n s = .next t) :
    pushTimes a (n + 1) s = exec (.push a) t := by
  induction n generalizing s with
  | zero =>
    cases h
    obtain ⟨u, hu⟩ := exec_answers_next (.push a) t
    rw [pushTimes_succ hu, hu]
    rfl
  | succ n ih =>
    obtain ⟨u, hu⟩ := exec_answers_next (.push a) s
    rw [pushTimes_succ hu] at h ⊢
    exact ih h

/-- As many pushes as SP says succeed (R127). -/
theorem pushTimes_pushedTimes {a : Byte} (ha : a.toNat < 8) {n : Nat} {s : State} (hn : n ≤ s.sp.toNat) :
    ∃ t, pushTimes a n s = .next t ∧ PushedTimes ⟨a.toNat, ha⟩ n s t := by
  induction n generalizing s with
  | zero => exact ⟨_, rfl, .zero _ _⟩
  | succ n ih =>
    have h0 : s.sp ≠ 0#8 := by bv_omega
    have hroom : n ≤ ((pushed s (s.reg ⟨a.toNat, ha⟩)).advance 2).sp.toNat := by
      rw [sp_advance, toNat_sp_pushed _ h0, pushAddress]
      omega
    obtain ⟨t, ht, hpushed⟩ := ih hroom
    exact ⟨t, (pushTimes_succ (Effect.push s a ha h0).exec_eq n).trans ht, hpushed.succ h0⟩

end Sys2Proof.Statements

namespace Sys2Proof.Proofs.Stack

open Sys2Proof.Machine Sys2Proof.Statements

/-- Settles O47: `pushTimes_pushedTimes`, and after SP of them SP is 0, where a push is `pushFull`. -/
theorem stackHoldsSpBytes : Obligations.StackHoldsSpBytes := by
  intro a ha s
  refine ⟨fun n hn => ?_, ?_⟩
  · obtain ⟨t, ht, hsp, hstatus, hfilled, hkept⟩ := pushTimes_pushedTimes ha hn
    exact ⟨t, ht, hsp, hstatus, hfilled, hkept⟩
  · obtain ⟨t, ht, hpushed⟩ := pushTimes_pushedTimes ha (Nat.le_refl s.sp.toNat)
    have h0 : t.sp = 0#8 := BitVec.eq_of_toNat_eq (hpushed.sp.trans (Nat.sub_self _))
    exact ⟨_, (pushTimes_succ_last ht).trans (Effect.pushFull t a ha h0).exec_eq, rfl, h0, rfl⟩

/-- Settles O45: the pop finds the byte and the SP that the push left (`topByte_pushed`, `regs_popped_pushed`). -/
theorem pushThenPopRoundTrip : Obligations.PushThenPopRoundTrip := by
  intro s a ha h0
  let v := s.reg ⟨a.toNat, ha⟩
  have hpop := Effect.pop ((pushed s v).advance 2) a ha (sp_pushed_ne v h0)
  refine ⟨_, _, (Effect.push s a ha h0).exec_eq, hpop.exec_eq, ?_, rfl, read_pushed_same s v,
    fun addr haddr => read_pushed_other v haddr, BitVec.add_assoc s.pc 2#9 2#9⟩
  have hregs : (popped ((pushed s v).advance 2)).regs = s.regs := regs_popped_pushed s v
  have htop : topByte ((pushed s v).advance 2) = v := topByte_pushed v h0
  rw [advance_regs, setReg_regs, hregs, htop]
  exact Vector.set_getElem_self _

end Sys2Proof.Proofs.Stack

namespace Sys2Proof.Machine

/-- RET after a CALL's return address has been popped: the 9-bit pc after the CALL (R130, R131). -/
theorem toPc_returnAddress {s : State} (hp : s.pc.toNat ≤ 253) : toPc (returnAddress s) = s.pc + 2#9 := by
  unfold toPc returnAddress
  bv_omega

end Sys2Proof.Machine

namespace Sys2Proof.Proofs.ControlTransfer

open Sys2Proof.Machine Sys2Proof.Statements

/-- Settles O46: RET pops the return address CALL pushed, and adds the 1 that CALL took from SP. -/
theorem callThenReturnRoundTrip : Obligations.CallThenReturnRoundTrip := by
  intro s a ha h0 hp
  refine ⟨_, (Effect.call s a ha h0).exec_eq, fun u hsp hcell => ?_⟩
  rw [sp_setPc] at hsp
  have hroom : u.sp ≠ 255#8 := by
    rw [hsp]
    exact sp_pushed_ne _ h0
  have htop : topByte u = returnAddress s := by
    rw [topByte, popAddress, hsp, toNat_sp_pushed _ h0]
    exact hcell.trans (read_pushed_same s _)
  refine ⟨_, (Effect.ret u hroom).exec_eq, ?_, ?_⟩
  · rw [setPc_pc, htop, toPc_returnAddress hp]
  · rw [sp_setPc, sp_popped, hsp, sp_pushed, BitVec.sub_add_cancel]

end Sys2Proof.Proofs.ControlTransfer

/-! PROOFS. The reset state and the boot sequence (70_reset_and_hazards.md). -/

namespace Sys2Proof.Machine

/-- A load into a core that is not RUNNING changes one cell. -/
theorem loadPort_state {s : State} (hr : s.status ≠ .running) (addr data : Byte) :
    (loadPort addr data s).1 = { s with mem := s.mem.write addr.toNat data } := by
  rw [loadPort, if_neg hr]

theorem loadFrom_cons {s : State} {addr : Nat} (hr : s.status ≠ .running) (ha : addr < 256) (byte : Byte)
    (rest : List Byte) :
    loadFrom addr (byte :: rest) s = loadFrom (addr + 1) rest { s with mem := s.mem.write addr byte } := by
  have haddr : (BitVec.ofNat 8 addr).toNat = addr := Nat.mod_eq_of_lt ha
  rw [loadFrom, if_pos ha, loadPort_state hr, haddr]

/-- A load changes memory alone. -/
theorem loadFrom_eq_with_mem {s : State} (hr : s.status ≠ .running) (addr : Nat) (bytes : List Byte) :
    loadFrom addr bytes s = { s with mem := (loadFrom addr bytes s).mem } := by
  induction bytes generalizing addr s with
  | nil => rfl
  | cons byte rest ih =>
    by_cases ha : addr < 256
    · rw [loadFrom_cons hr ha]
      exact ih (s := { s with mem := s.mem.write addr byte }) hr (addr + 1)
    · rw [loadFrom, if_neg ha]

/-- The loaded bytes lie at their addresses, and every other cell is kept (R38). -/
theorem read_loadFrom {s : State} (hr : s.status ≠ .running) {start : Nat} {bytes : List Byte}
    (hfit : start + bytes.length ≤ 256) (addr : Nat) :
    (loadFrom start bytes s).mem.read addr =
      if start ≤ addr then bytes.getD (addr - start) (s.mem.read addr) else s.mem.read addr := by
  induction bytes generalizing start s with
  | nil => simp [loadFrom]
  | cons byte rest ih =>
    rw [List.length_cons] at hfit
    rw [loadFrom_cons hr (by omega), ih (s := { s with mem := s.mem.write start byte }) hr (by omega)]
    obtain hlt | rfl | hgt := Nat.lt_trichotomy addr start
    · rw [if_neg (by omega), if_neg (by omega), Memory.read_write_other _ _ _ _ (by omega)]
    · simp
    · obtain ⟨k, rfl⟩ := Nat.exists_eq_add_of_lt hgt
      rw [if_pos (by omega), if_pos (by omega), Memory.read_write_other _ _ _ _ (by omega),
        show start + k + 1 - (start + 1) = k by omega, show start + k + 1 - start = k + 1 by omega, List.getD_cons_succ]

/-- Boot: the state after the reset action, RUNNING, with the loaded memory. -/
theorem boot_eq (program : List Byte) (s : State) :
    boot program s =
      { resetAction s with mem := (loadFrom 0 program (resetAction s)).mem, status := .running } := by
  rw [boot, loadFrom_eq_with_mem (s := resetAction s) nofun]
  rfl

end Sys2Proof.Machine

namespace Sys2Proof.Proofs.ResetAndHazards

open Sys2Proof.Machine

/-- Settles O53: boot is the reset action with the program loaded (`boot_eq`, `read_loadFrom`). -/
theorem bootGivesLaunchState : Obligations.BootGivesLaunchState := by
  intro program s hlen
  rw [boot_eq]
  refine ⟨rfl, fun addr => ?_⟩
  exact (read_loadFrom (s := resetAction s) nofun (by omega) addr).trans (if_pos (Nat.zero_le addr))

/-- Settles O49: the fields of `State.reset`; R7 is what `resetRegs` pushes. -/
theorem resetStateValues : Obligations.ResetStateValues :=
  ⟨rfl, rfl, rfl, rfl, rfl, rfl, rfl, rfl, rfl⟩

end Sys2Proof.Proofs.ResetAndHazards
